-- ==== Sys2Proof/Config.lean ====
section
/-! DEFINITION. What an implementation fixes, and the free values the spec leaves open. -/

namespace Sys2Proof

/-- CTRL_N_REVERSED (00_scope.md R9, 30_encoding.md R63, D7): whether the field N of the control byte is
bit-reversed. The spec fixes it to false (90_conflicts.md C1). Log 18. -/
def Config.ctrlNReversed : Bool := false

/-- DESIGN CHOICE (log 7). The bytes of `W.buf` after a fault, which the spec leaves unspecified
(60_exceptions.md R130, U5). -/
opaque Config.freeWriterBytes : Nat → List (BitVec 8)

/-- DESIGN CHOICE (log 7). `W.pos` after a fault, unspecified (R130, U5). -/
opaque Config.freeWriterPos : Nat → Nat

/-- DESIGN CHOICE (log 7). The bytes of `R.buf` after a fault, unspecified (R130, U5). -/
opaque Config.freeReaderBytes : Nat → List (BitVec 8)

/-- DESIGN CHOICE (log 7). `R.n` after a fault, unspecified (R130, U5, U8). -/
opaque Config.freeReaderPos : Nat → Nat

/-- DESIGN CHOICE (log 7). `D.out` after a fault, unspecified (R130, U5). -/
opaque Config.freeDecodeOut : Nat → List (BitVec 64)

/-- DESIGN CHOICE (log 7). `E.i` after a fault, unspecified (R130, U5). -/
opaque Config.freeEncodeIndex : Nat → Nat

end Sys2Proof
end

