-- ==== Sys2Proof/Syntax.lean ====
section
/-! DEFINITION. The instructions of small_int CORE, one constructor per row of spec/opcode_table.json:
the ten operations and the six reserved codes of the command interface (30_encoding.md R71, R72) and the
thirteen code words of the wire format (R55 to R62, named as R73 names them). -/

namespace Sys2Proof

/-- The seven regularized forms (10_state.md R17, R18). -/
inductive RegForm where
  | f1 | f2 | f3 | f4 | f5 | f6 | f7
  deriving DecidableEq, Repr

/-- The sizes N of the raw form, 2 .. 7 (10_state.md R21). -/
inductive RawSize where
  | n2 | n3 | n4 | n5 | n6 | n7
  deriving DecidableEq, Repr

/-- A form of code word: a regularized form, or raw with its N (00_scope.md glossary, "Form"; the thirteen
patterns of 30_encoding.md R64). -/
inductive Form where
  | reg (k : RegForm)
  | raw (n : RawSize)
  deriving DecidableEq, Repr

/-- The instructions. An operation's code carries no operand: its operands stand in the operand registers
(R31, R71). A code word carries its payload `d`, the number its `D` payload bits hold (R67). -/
inductive Instr where
  | bwNew
  | bwEmit
  | bwFinalize
  | brNew
  | brPeek
  | brReadBits
  | ftSelect
  | ftClassify
  | codecEncode
  | codecDecode
  | reservedA
  | reservedB
  | reservedC
  | reservedD
  | reservedE
  | reservedF
  | cwF1 (d : Nat)
  | cwF2 (d : Nat)
  | cwF3 (d : Nat)
  | cwF4 (d : Nat)
  | cwF5 (d : Nat)
  | cwF6 (d : Nat)
  | cwF7 (d : Nat)
  | cwRawN2 (d : Nat)
  | cwRawN3 (d : Nat)
  | cwRawN4 (d : Nat)
  | cwRawN5 (d : Nat)
  | cwRawN6 (d : Nat)
  | cwRawN7 (d : Nat)
  deriving DecidableEq, Repr

/-- The two places an instruction is read from: the command interface (R71) and the byte stream (R53). -/
inductive Port where
  | command
  | stream
  deriving DecidableEq, Repr

/-- The bits of an instruction: `nbits` of them, bit 0 of `word` the first (R53: "sent least significant
bit first"). -/
structure Code where
  nbits : Nat
  word : Nat
  deriving DecidableEq, Repr

/-- Why the decoder gives no instruction. -/
inductive DecodeError where
  /-- No bit is left where a code word is wanted (44_codec_decode.md R111). -/
  | noBits
  /-- Fewer bits are left than the named form's whole width (R112). -/
  | truncated
  /-- Not the 4 bits of an operation code (30_encoding.md R71). -/
  | notACommand
  deriving DecidableEq, Repr

end Sys2Proof
end

