-- ==== Sys2Proof/Word.lean ====
section
/-! DEFINITION. The words of small_int CORE: bytes, 64-bit values, and the ends of the value domain
(00_scope.md R8, R10). -/

namespace Sys2Proof

/-- A byte of a byte buffer, an integer 0..255 whose bit 0 is the least significant (R10). -/
abbrev Byte := BitVec 8

/-- A decoded value, unsigned, 0 .. 2^64−1 (R8, R35). -/
abbrev U64 := BitVec 64

/-- The largest value of the domain, 2^64 − 1 (R8). -/
abbrev maxValue : Nat := 18446744073709551615

end Sys2Proof
end

