-- ==== Sys2Proof/Machine/State.lean ====
section
/-! DEFINITION. The state of small_int CORE as plain data: every piece 10_state.md R15 lists, the operand and
result registers of R31, and the model's own two fields (log 1, log 7). -/

namespace Sys2Proof.Machine

open Sys2Proof

/-- A byte buffer: a finite sequence of bytes numbered from 0 (R10, R35). The byte at position `a` is the cell
`(a, byte)`; there is no cell at or beyond the length (log 15). -/
abbrev Memory := List Byte

/-- The writer cursor `W` (R23): `pos` is the number of bits of the last byte that EMIT has written. -/
structure Writer where
  buf : Memory
  pos : Nat
  deriving DecidableEq, Repr

/-- The reader cursor `R` (R25): `n` is the number of bits consumed so far. -/
structure Reader where
  buf : Memory
  n : Nat
  deriving DecidableEq, Repr

/-- The place of one cursor (R15: "at most one"). -/
inductive Slot (α : Type) where
  /-- No cursor exists: a codec call has discarded its own (R26, R104, R115). -/
  | absent
  /-- The cursor exists and may be used. -/
  | live (c : α)
  /-- The cursor was there when an operation raised: its contents must not be used (R34, R130) and it "can
  only be replaced" (R88). Log 6. -/
  | dead (c : α)
  deriving DecidableEq, Repr

/-- The error kinds (60_exceptions.md R120, R127). -/
inductive ErrorKind where
  | range
  | truncatedInput
  | overRequest
  /-- Reserved: nothing raises it (R124, C5; log 23). -/
  | malformedPrefix
  | endOfStream
  | illegalOperation
  deriving DecidableEq, Repr

/-- `STATUS` (R30): OK, or FAULT(E). -/
inductive Status where
  | ok
  | fault (e : ErrorKind)
  deriving DecidableEq, Repr

/-- The states of the decode machine (R28, R109). -/
inductive DecodeState where
  | awaitingValue
  | done
  deriving DecidableEq, Repr

/-- The decode record `D` (R28). -/
structure DecodeRecord where
  state : DecodeState
  count : BitVec 64
  out : List U64
  deriving DecidableEq, Repr

/-- The EncodedValue triple (R27): `Reg(k, adj, width)` or `Raw(N, adj, width)`. -/
structure EncodedValue where
  form : Form
  adj : Nat
  width : Nat
  deriving DecidableEq, Repr

/-- What the result register `FORM` holds (R31, R71): the triple of FT.SELECT, or the form, `P`, `D` and `base`
of FT.CLASSIFY (42_formtable.md R96). -/
inductive FormResult where
  | selected (ev : EncodedValue)
  | classified (form : Form) (prefixBits payloadBits base : Nat)
  deriving DecidableEq, Repr

/-- The operand registers (R31), written by the host with a request. `window` is the operand DATA[7:0] of
FT.CLASSIFY (log 5). -/
structure Operands where
  value : Int
  nbits : BitVec 7
  count : BitVec 64
  window : BitVec 8
  bytesIn : List Byte
  valuesIn : List Int
  deriving DecidableEq, Repr

/-- Operand registers nothing has written: zero and empty. DESIGN CHOICE (log 2). -/
def Operands.zero : Operands :=
  { value := 0, nbits := 0, count := 0, window := 0, bytesIn := [], valuesIn := [] }

/-- A request of the host (R71): an operation code and the operands that come with it. -/
structure Request where
  op : BitVec 4
  args : Operands
  deriving DecidableEq, Repr

/-- The response registers (R31, R71): the status code answered, and the results. A result register the last
operation gave no value "holds nothing" (R34, R130): `none` (log 3). -/
structure Response where
  code : BitVec 3
  data : Option (BitVec 64)
  avail : Option (BitVec 4)
  form : Option FormResult
  bytesOut : Option (List Byte)
  valuesOut : Option (List U64)
  deriving DecidableEq, Repr

/-- A response that carries a status code and no result. -/
def Response.bare (code : BitVec 3) : Response :=
  { code := code, data := none, avail := none, form := none, bytesOut := none, valuesOut := none }

/-- The whole state of one instance of the block (R15). -/
structure State where
  /-- the writer cursor (R23) -/
  w : Slot Writer
  /-- the reader cursor (R25) -/
  r : Slot Reader
  /-- the decode record (R28) -/
  d : DecodeRecord
  /-- `E.i`, the encode record (R29) -/
  encIdx : Nat
  /-- `STATUS` (R30) -/
  status : Status
  /-- `OP[3:0]` (R31) -/
  op : BitVec 4
  /-- the operand registers (R31) -/
  args : Operands
  /-- the response registers (R31) -/
  resp : Response
  /-- the MODEL's own: the requests the host will issue, first first (log 1) -/
  inbox : List Request
  /-- the MODEL's own: picks the next free values (log 7) -/
  free : Nat
  deriving DecidableEq, Repr

/-- The reasons a step could stop with a fault: none. Every error of the block is a status and the block goes on
(60_exceptions.md R130, R134), so a fault is never raised. -/
inductive Fault where
  deriving DecidableEq, Repr

/-- The reasons a step could refuse. -/
inductive Refusal where
  /-- The host's own: an instruction whose meaning is not written yet. No arm of `exec` raises it in this model.
  Safe: the run stops and nothing is claimed of it. -/
  | notModelled (mnemonic : String)
  deriving DecidableEq, Repr

/-- The machine after power-on reset (10_state.md R34, 70_reset_and_hazards.md R142): both cursors exist and are
empty, the decode machine is Done, STATUS is OK, results without value. The operand registers are zero and empty
(DESIGN CHOICE, log 2). -/
def State.reset : State :=
  { w := .live { buf := [], pos := 0 }
    r := .live { buf := [], n := 0 }
    d := { state := .done, count := 0, out := [] }
    encIdx := 0
    status := .ok
    op := 0
    args := Operands.zero
    resp := Response.bare 0
    inbox := []
    free := 0 }

end Sys2Proof.Machine
end

