-- ==== Sys2Proof/Machine/Bits.lean ====
section
/-! DEFINITION. Bits of integers and of byte buffers: the primitives of 00_scope.md R13 and 20_memory.md R36 to
R41, and the cursors seen as bit streams (10_state.md R24, R25). -/

namespace Sys2Proof.Machine

open Sys2Proof

/-- `low(v, n) = v mod 2^n` (R13). -/
def low (v n : Nat) : Nat := v % 2 ^ n

/-- `bitlength(x)`: the least `b` with `x < 2^b` (R13, marked there as general knowledge, G1; log 27). -/
def bitLength (x : Nat) : Nat := if x = 0 then 0 else Nat.log2 x + 1

/-- `ceil(p / q)` (R13). -/
def ceilDiv (p q : Nat) : Nat := (p + q - 1) / q

/-- The bits `bit(v, 0) .. bit(v, n−1)` in stream order (R10, R37). -/
def fieldBits (v : Nat) : Nat → List Bool
  | 0 => []
  | n + 1 => (v % 2 == 1) :: fieldBits (v / 2) n

/-- One byte of a buffer; none at an index that does not exist. -/
def Memory.byte (b : Memory) (i : Nat) : Option Byte := b[i]?

/-- Stream bit `a` of a buffer: bit `a mod 8` of byte `floor(a / 8)` (R10, R36). No operation reads a bit that does
not exist; there it is false. -/
def Memory.bit (b : Memory) (a : Nat) : Bool :=
  match b[a / 8]? with
  | some y => y.getLsbD (a % 8)
  | none => false

/-- `MemRead(B, a, n)`: the `n` bits from bit address `a` on, least significant first (R13, R40). -/
def Memory.read (b : Memory) (a : Nat) : Nat → Nat
  | 0 => 0
  | n + 1 => (Memory.bit b a).toNat + 2 * Memory.read b (a + 1) n

/-- `Append(B, y)` (R13, R41). -/
def Memory.append (b : Memory) (y : Byte) : Memory := b ++ [y]

/-- Byte `y` with bit `i` set to `x`. -/
def byteWithBit (y : Byte) (i : Nat) (x : Bool) : Byte :=
  if x then y ||| BitVec.ofNat 8 (2 ^ i) else y &&& ~~~(BitVec.ofNat 8 (2 ^ i))

/-- Sets stream bit `a` of a buffer, whose byte must exist. -/
def Memory.setBit (b : Memory) (a : Nat) (x : Bool) : Memory :=
  match b[a / 8]? with
  | some y => b.set (a / 8) (byteWithBit y (a % 8) x)
  | none => b

/-- `MemWrite(B, a, n, v)`: sets stream bits `a .. a+n−1` to `bit(v,0) .. bit(v,n−1)` (R13, R41). -/
def Memory.write (b : Memory) (a : Nat) : Nat → Nat → Memory
  | 0, _ => b
  | n + 1, v => Memory.write (Memory.setBit b a (v % 2 == 1)) (a + 1) n (v / 2)

/-- The buffer as address and byte cells, addresses rising from 0 (log 15). -/
def Memory.cells (b : Memory) : List Host.Cell := b.zipIdx.map fun p => (p.2, p.1)

/-- `nbits(W)` (R24). -/
def Writer.nbits (w : Writer) : Nat :=
  if w.buf = [] then 0 else 8 * (w.buf.length - 1) + w.pos

/-- `bits(W)` (R24). -/
def Writer.bits (w : Writer) : List Bool := (List.range w.nbits).map (Memory.bit w.buf)

/-- A freshly created writer cursor (40_bitwriter.md R75). -/
def Writer.empty : Writer := { buf := [], pos := 0 }

/-- One pass of EMIT's loop (R76): a new byte 0x00 where the buffer is empty or its last byte full, then the bit
at the next position, by MemWrite at `nbits(W)` (R41). -/
def Writer.pushBit (w : Writer) (x : Bool) : Writer :=
  if w.buf = [] ∨ w.pos = 8 then
    { buf := Memory.setBit (Memory.append w.buf 0) (8 * w.buf.length) x, pos := 1 }
  else
    { buf := Memory.setBit w.buf (8 * (w.buf.length - 1) + w.pos) x, pos := w.pos + 1 }

/-- EMIT of the low `n` bits of `v`, least significant first (R76). -/
def Writer.emit (w : Writer) (v : Nat) : Nat → Writer
  | 0 => w
  | n + 1 => Writer.emit (Writer.pushBit w (v % 2 == 1)) (v / 2) n

/-- A freshly created reader cursor over a byte sequence (41_bitreader.md R83). -/
def Reader.over (b : List Byte) : Reader := { buf := b, n := 0 }

/-- `rem(R)`, the number of bits left (R25, R84). -/
def Reader.rem (r : Reader) : Nat := 8 * r.buf.length - r.n

/-- The next `n` bits of the reader, not consumed (R40). -/
def Reader.look (r : Reader) (n : Nat) : Nat := Memory.read r.buf r.n n

/-- The reader with `n` bits consumed. -/
def Reader.skip (r : Reader) (n : Nat) : Reader := { r with n := r.n + n }

/-- The canonical form of a writer cursor (R23, R24): `pos` is 0 exactly when the buffer is empty, else 1..8, and
the bits of the last byte at and above `pos` are 0. -/
def Writer.wf (w : Writer) : Bool :=
  match w.buf.getLast? with
  | none => w.pos == 0
  | some y => decide (1 ≤ w.pos) && decide (w.pos ≤ 8) && decide (y.toNat < 2 ^ w.pos)

/-- The bound of a reader cursor (R25). -/
def Reader.wf (r : Reader) : Bool := decide (r.n ≤ 8 * r.buf.length)

/-- The canonical form of the memory of the machine: every cursor that may be used keeps its own. -/
def Memory.wf (w : Slot Writer) (r : Slot Reader) : Bool :=
  (match w with | .live c => Writer.wf c | _ => true) && (match r with | .live c => Reader.wf c | _ => true)

end Sys2Proof.Machine
end

