-- ==== Sys2Proof/Machine/Forms.lean ====
section
/-! DEFINITION. The FormTable (10_state.md R16 to R21, 42_formtable.md R91), the control byte (30_encoding.md R63),
form selection at encode (42_formtable.md R92, R93) and prefix classification at decode (R96). -/

namespace Sys2Proof.Machine

open Sys2Proof

/-- A FormDescriptor (R16). -/
structure FormDescriptor where
  index : Nat
  dataBits : Nat
  capacity : Nat
  shift : Nat
  top : Nat
  deriving DecidableEq, Repr

/-- The payload widths of the seven regularized forms (R17). -/
def formWidths : List Nat := [1, 2, 5, 8, 12, 16, 19]

/-- The table from the widths alone (R16, R91): `k` the next index, `shift` the sum of the capacities before it. -/
def buildFormTable (k shift : Nat) : List Nat → List FormDescriptor
  | [] => []
  | d :: ds =>
    { index := k, dataBits := d, capacity := 2 ^ d, shift := shift, top := shift + 2 ^ d - 1 } ::
      buildFormTable (k + 1) (shift + 2 ^ d) ds

/-- The FormTable: constant from the first instant, written by no operation (R22, R144). -/
def formTable : List FormDescriptor := buildFormTable 1 0 formWidths

/-- The index k of a regularized form (R18). -/
def RegForm.index : RegForm → Nat
  | .f1 => 1 | .f2 => 2 | .f3 => 3 | .f4 => 4 | .f5 => 5 | .f6 => 6 | .f7 => 7

/-- The form's row of the table. -/
def RegForm.descriptor (k : RegForm) : FormDescriptor :=
  formTable.getD (RegForm.index k - 1) { index := 0, dataBits := 0, capacity := 0, shift := 0, top := 0 }

/-- The regularized forms in increasing order. -/
def regForms : List RegForm := [.f1, .f2, .f3, .f4, .f5, .f6, .f7]

/-- `MAX_REGULARIZED`, the top of the last regularized form (R20). -/
def maxRegularized : Nat := (RegForm.descriptor .f7).top

/-- `RAW_OFFSET` (R20). -/
def rawOffset : Nat := maxRegularized + 1

/-- The number N of a raw size (R21). -/
def RawSize.number : RawSize → Nat
  | .n2 => 2 | .n3 => 3 | .n4 => 4 | .n5 => 5 | .n6 => 6 | .n7 => 7

/-- The raw size of a payload of `nbytes` bytes, N = nbytes − 1 (R93); none outside 3 .. 8. -/
def RawSize.ofBytes : Nat → Option RawSize
  | 3 => some .n2 | 4 => some .n3 | 5 => some .n4 | 6 => some .n5 | 7 => some .n6 | 8 => some .n7
  | _ => none

/-- A 3-bit number with its bits in the other order. -/
def reverse3 (n : Nat) : Nat := n % 2 * 4 + n / 2 % 2 * 2 + n / 4 % 2

/-- `ctrl_byte(N)` under either setting of CTRL_N_REVERSED (R63). -/
def ctrlByteWith (reversed : Bool) (n : Nat) : Nat := 0x1F + 32 * (if reversed then reverse3 n else n)

/-- `ctrl_N(c)` under either setting of CTRL_N_REVERSED (R63): bits 7:5. -/
def ctrlNWith (reversed : Bool) (c : Nat) : Nat :=
  if reversed then reverse3 (c / 32 % 8) else c / 32 % 8

/-- `ctrl_byte(N) = 0x1F + 32·N` (R63, C1). -/
def ctrlByte (n : Nat) : Nat := ctrlByteWith Config.ctrlNReversed n

/-- `ctrl_N(c) = c[7:5]` (R63, C1). -/
def ctrlN (c : Nat) : Nat := ctrlNWith Config.ctrlNReversed c

/-- `P`, the length of the form's prefix (R18, R62). -/
def Form.prefixBits : Form → Nat
  | .reg .f1 => 1 | .reg .f2 => 2 | .reg .f3 => 3 | .reg .f4 => 8
  | .reg .f5 => 4 | .reg .f6 => 8 | .reg .f7 => 5
  | .raw _ => 8

/-- `PV`, the form's prefix as the integer EMIT is given (R18, R55 to R62). -/
def Form.prefixValue : Form → Nat
  | .reg .f1 => 0x00 | .reg .f2 => 0x01 | .reg .f3 => 0x03 | .reg .f4 => ctrlByte 0
  | .reg .f5 => 0x07 | .reg .f6 => ctrlByte 1 | .reg .f7 => 0x0F
  | .raw n => ctrlByte (RawSize.number n)

/-- `D`, the number of payload bits (R18, R62). -/
def Form.payloadBits : Form → Nat
  | .reg k => (RegForm.descriptor k).dataBits
  | .raw n => 8 * (RawSize.number n + 1)

/-- What is added to the payload: `shift_k`, or RAW_OFFSET (R96). -/
def Form.base : Form → Nat
  | .reg k => (RegForm.descriptor k).shift
  | .raw _ => rawOffset

/-- The total width `P + D` of the form's code word (R18, R95). -/
def Form.width (f : Form) : Nat := Form.prefixBits f + Form.payloadBits f

/-- All thirteen forms, in the order of spec/opcode_table.json. -/
def allForms : List Form :=
  [.reg .f1, .reg .f2, .reg .f3, .reg .f4, .reg .f5, .reg .f6, .reg .f7,
   .raw .n2, .raw .n3, .raw .n4, .raw .n5, .raw .n6, .raw .n7]

/-- The raw form of an adjusted value (R93): the least byte count that holds it, raised to 3; the rejection of more
than 8 bytes (R94) is the last arm. -/
def rawOfAdj (adj : Nat) : Except ErrorKind EncodedValue :=
  match RawSize.ofBytes (max 3 (ceilDiv (bitLength adj) 8)) with
  | some n => .ok { form := .raw n, adj := adj, width := 8 + 8 * max 3 (ceilDiv (bitLength adj) 8) }
  | none => .error .range

/-- `raw_select(v)` for `v` above MAX_REGULARIZED (R93). -/
def rawSelect (v : Nat) : Except ErrorKind EncodedValue := rawOfAdj (v - rawOffset)

/-- FT.SELECT on an integer (R92): the smallest form whose top is not below the value, else raw. -/
def selectForm (v : Int) : Except ErrorKind EncodedValue :=
  if v < 0 ∨ (maxValue : Int) < v then .error .range
  else
    match regForms.find? (fun k => decide (v.toNat ≤ (RegForm.descriptor k).top)) with
    | some k =>
      .ok { form := .reg k, adj := v.toNat - (RegForm.descriptor k).shift, width := Form.width (.reg k) }
    | none => rawSelect v.toNat

/-- The form of a control byte by its N (R21, R96). -/
def ctrlForm : Nat → Form
  | 0 => .reg .f4 | 1 => .reg .f6
  | 2 => .raw .n2 | 3 => .raw .n3 | 4 => .raw .n4 | 5 => .raw .n5 | 6 => .raw .n6
  | _ => .raw .n7

/-- FT.CLASSIFY of a peek window (R96), the tests in its order. -/
def classify (p : BitVec 8) : Form :=
  if p.getLsbD 0 = false then .reg .f1
  else if p.getLsbD 1 = false then .reg .f2
  else if p.getLsbD 2 = false then .reg .f3
  else if p.getLsbD 3 = false then .reg .f5
  else if p.getLsbD 4 = false then .reg .f7
  else ctrlForm (ctrlN p.toNat)

end Sys2Proof.Machine
end

