-- ==== Sys2Proof/Decode.lean ====
section
/-! DEFINITION. The decoder and the encoder. A command's four bits are its operation code (30_encoding.md R71, R72);
a code word is told from its first up to 8 bits (R66) and its payload is the `D` bits after the prefix (R67). -/

namespace Sys2Proof

open Sys2Proof.Machine

/-- The instruction of an operation code (R71, R72). Every 4-bit code has one. -/
def decodeCommand (op : BitVec 4) : Instr :=
  match op.toNat with
  | 0x0 => .bwNew | 0x1 => .bwEmit | 0x2 => .bwFinalize
  | 0x3 => .brNew | 0x4 => .brPeek | 0x5 => .brReadBits
  | 0x6 => .ftSelect | 0x7 => .ftClassify
  | 0x8 => .codecEncode | 0x9 => .codecDecode
  | 0xA => .reservedA | 0xB => .reservedB | 0xC => .reservedC
  | 0xD => .reservedD | 0xE => .reservedE | _ => .reservedF

/-- The code word instruction of a form and a payload (R73). -/
def codeWordInstr : Form → Nat → Instr
  | .reg .f1, d => .cwF1 d | .reg .f2, d => .cwF2 d | .reg .f3, d => .cwF3 d | .reg .f4, d => .cwF4 d
  | .reg .f5, d => .cwF5 d | .reg .f6, d => .cwF6 d | .reg .f7, d => .cwF7 d
  | .raw .n2, d => .cwRawN2 d | .raw .n3, d => .cwRawN3 d | .raw .n4, d => .cwRawN4 d
  | .raw .n5, d => .cwRawN5 d | .raw .n6, d => .cwRawN6 d | .raw .n7, d => .cwRawN7 d

/-- The form and payload of a code word instruction; none for an operation. -/
def codeWordOf : Instr → Option (Form × Nat)
  | .cwF1 d => some (.reg .f1, d) | .cwF2 d => some (.reg .f2, d) | .cwF3 d => some (.reg .f3, d)
  | .cwF4 d => some (.reg .f4, d) | .cwF5 d => some (.reg .f5, d) | .cwF6 d => some (.reg .f6, d)
  | .cwF7 d => some (.reg .f7, d)
  | .cwRawN2 d => some (.raw .n2, d) | .cwRawN3 d => some (.raw .n3, d) | .cwRawN4 d => some (.raw .n4, d)
  | .cwRawN5 d => some (.raw .n5, d) | .cwRawN6 d => some (.raw .n6, d) | .cwRawN7 d => some (.raw .n7, d)
  | .bwNew | .bwEmit | .bwFinalize | .brNew | .brPeek | .brReadBits | .ftSelect | .ftClassify
  | .codecEncode | .codecDecode
  | .reservedA | .reservedB | .reservedC | .reservedD | .reservedE | .reservedF => none

/-- The form and payload of the code word at the front of `avail` stream bits, bit 0 of `bits` the first: the peek
window (fewer than 8 bits zero-filled, R86) names the form (R96), and the whole width must be there (R112). -/
def decodeCodeWord (avail bits : Nat) : Except DecodeError (Form × Nat) :=
  if avail = 0 then .error .noBits
  else
    let f := classify (BitVec.ofNat 8 (low bits (min 8 avail)))
    if avail < Form.width f then .error .truncated
    else .ok (f, low (bits / 2 ^ Form.prefixBits f) (Form.payloadBits f))

/-- The longest code word, 72 bits (R65). -/
def maxCodeBits : Nat := 72

/-- The form and payload of the code word that starts at bit `a` of a byte buffer (R66, R67). -/
def decodeAt (b : Memory) (a : Nat) : Except DecodeError (Form × Nat) :=
  decodeCodeWord (8 * b.length - a) (Memory.read b a (min maxCodeBits (8 * b.length - a)))

/-- The instruction of the bits given at a port: total, rejecting by name. -/
def decode (p : Port) (c : Code) : Except DecodeError Instr :=
  match p with
  | .command => if c.nbits = 4 ∧ c.word < 16 then .ok (decodeCommand (BitVec.ofNat 4 c.word)) else .error .notACommand
  | .stream =>
    match decodeCodeWord c.nbits c.word with
    | .ok (f, d) => .ok (codeWordInstr f d)
    | .error e => .error e

/-- The port an instruction is read from. -/
def portOf (i : Instr) : Port :=
  match codeWordOf i with
  | some _ => .stream
  | none => .command

/-- The operation code of an operation (R71, R72). -/
def commandCode : Instr → Nat
  | .bwNew => 0x0 | .bwEmit => 0x1 | .bwFinalize => 0x2
  | .brNew => 0x3 | .brPeek => 0x4 | .brReadBits => 0x5
  | .ftSelect => 0x6 | .ftClassify => 0x7 | .codecEncode => 0x8 | .codecDecode => 0x9
  | .reservedA => 0xA | .reservedB => 0xB | .reservedC => 0xC
  | .reservedD => 0xD | .reservedE => 0xE | .reservedF => 0xF
  | .cwF1 _ | .cwF2 _ | .cwF3 _ | .cwF4 _ | .cwF5 _ | .cwF6 _ | .cwF7 _ => 0
  | .cwRawN2 _ | .cwRawN3 _ | .cwRawN4 _ | .cwRawN5 _ | .cwRawN6 _ | .cwRawN7 _ => 0

/-- The code word `cw = PV + adj · 2^P` (R53), on `P + D` bits. -/
def encodeCodeWord (f : Form) (d : Nat) : Code :=
  { nbits := Form.width f, word := Form.prefixValue f + d * 2 ^ Form.prefixBits f }

/-- The bits of an instruction: an operation's 4-bit code (R71), or the code word (R53). -/
def encode (i : Instr) : Code :=
  match codeWordOf i with
  | some (f, d) => encodeCodeWord f d
  | none => { nbits := 4, word := commandCode i }

/-- Whether a word of the opcode table stands for a command: four to eight bits, the upper ones zero. Commands and code
words live in two places and the table numbers both from bit 0, so a bare short word below 16 could be either; it is
read as a command (DESIGN CHOICE, log 14). -/
def isCommandWord (nbits w : Nat) : Bool := decide (4 ≤ nbits) && decide (nbits ≤ 8) && decide (w < 16)

/-- The first `n` bytes of a number, least significant first: how bits lie in a byte buffer (R36, R37). -/
def bytesOfNat : Nat → Nat → List Byte
  | 0, _ => []
  | n + 1, w => BitVec.ofNat 8 w :: bytesOfNat n (w / 256)

/-- The bytes of a table word, zero above its bits, up to the longest code word. -/
def wordBytes (nbits w : Nat) : List Byte := bytesOfNat (maxCodeBits / 8) (low w nbits)

/-- The instruction the decoder reads from a word of spec/opcode_table.json. -/
def decodeTableWord (nbits w : Nat) : Option Instr :=
  if isCommandWord nbits w then some (decodeCommand (BitVec.ofNat 4 w))
  else
    match decodeAt (wordBytes nbits w) 0 with
    | .ok (f, d) => some (codeWordInstr f d)
    | .error _ => none

end Sys2Proof
end

