-- ==== Sys2Proof/Machine/Flags.lean ====
section
/-! DEFINITION. The block's one status register (10_state.md R30): its codes (60_exceptions.md R127). It has no other
flag. -/

namespace Sys2Proof.Machine

/-- The code of an error kind (R127). -/
def ErrorKind.code : ErrorKind → BitVec 3
  | .range => 1
  | .truncatedInput => 2
  | .overRequest => 3
  | .malformedPrefix => 4
  | .endOfStream => 5
  | .illegalOperation => 6

/-- `STATUS[2:0]` (R30, R127). -/
def Status.code : Status → BitVec 3
  | .ok => 0
  | .fault e => ErrorKind.code e

/-- The status a 3-bit code stands for; 7 is reserved and never produced (R127, U20). -/
def Status.ofCode (c : BitVec 3) : Option Status :=
  match c.toNat with
  | 0 => some .ok
  | 1 => some (.fault .range)
  | 2 => some (.fault .truncatedInput)
  | 3 => some (.fault .overRequest)
  | 4 => some (.fault .malformedPrefix)
  | 5 => some (.fault .endOfStream)
  | 6 => some (.fault .illegalOperation)
  | _ => none

end Sys2Proof.Machine
end

