-- ==== Sys2Proof/Machine/Operands.lean ====
section
/-! DEFINITION. How an operation reads its operand registers (10_state.md R31, 30_encoding.md R71). -/

namespace Sys2Proof.Machine

open Sys2Proof

/-- VALUE as BW.EMIT takes it: 64 bits unsigned (R31, R76). An integer outside 64 bits counts by its low 64 bits,
which loses nothing since NBITS is at most 64 (N27; log 4). -/
def emitValue (s : State) : Nat := (BitVec.ofInt 64 s.args.value).toNat

/-- VALUE as FT.SELECT takes it: a mathematical integer (R31, D16). -/
def selectValue (s : State) : Int := s.args.value

/-- NBITS[6:0] (R31). -/
def nbitsOperand (s : State) : Nat := s.args.nbits.toNat

/-- COUNT[63:0] (R31). -/
def countOperand (s : State) : BitVec 64 := s.args.count

/-- DATA[7:0] of FT.CLASSIFY, a peek window (R96). -/
def windowOperand (s : State) : BitVec 8 := s.args.window

/-- BYTES_IN (R31). -/
def bytesOperand (s : State) : List Byte := s.args.bytesIn

/-- VALUES_IN (R31), each element a mathematical integer (43_codec_encode.md R103). -/
def valuesOperand (s : State) : List Int := s.args.valuesIn

/-- The most bits one EMIT moves (R76, R81). -/
def maxEmitBits : Nat := 64

/-- The most bits one PEEK looks at (R85, R89). -/
def maxPeekBits : Nat := 8

/-- The most bits one READBITS moves (R87, R89). -/
def maxReadBits : Nat := 64

end Sys2Proof.Machine
end

