-- ==== Sys2Proof/Machine/Ops.lean ====
section
/-! DEFINITION. The shared operations: answering the host, raising an error and rejecting a request
(60_exceptions.md R130, R134), finding and making cursors, the per-value step of decode (44_codec_decode.md R110) and
the two codec loops (43_codec_encode.md R104, 44_codec_decode.md R115), and taking a request. -/

namespace Sys2Proof.Machine

open Sys2Proof

/-- What every meaning answers. -/
abbrev Result : Type := Host.Outcome State Fault Refusal

/-- A response with no result, to be filled with results; `State.answer` writes its code. -/
def noResult : Response := Response.bare 0

/-- The response of an operation that does not fail: STATUS[2:0] and the results (30_encoding.md R71; log 10). -/
def State.answer (s : State) (r : Response) : State := { s with resp := { r with code := Status.code s.status } }

/-- The writer slot after `raise e`: a cursor there may no longer be used; its contents are unchanged by
IllegalOperation (R126; log 8) and unspecified after any other error (R130; log 7). -/
def Slot.writerAfter (e : ErrorKind) (k : Nat) : Slot Writer → Slot Writer
  | .absent => .absent
  | .live c | .dead c =>
    if e = .illegalOperation then .dead c
    else .dead { buf := Config.freeWriterBytes k, pos := Config.freeWriterPos k }

/-- The reader slot after `raise e`: as the writer's, but after EndOfStream the buffer is as it was and `R.n` is any
number from what it was to the end (R88, U8; log 7). -/
def Slot.readerAfter (e : ErrorKind) (k : Nat) : Slot Reader → Slot Reader
  | .absent => .absent
  | .live c | .dead c =>
    match e with
    | .illegalOperation => .dead c
    | .endOfStream => .dead { buf := c.buf, n := c.n + Config.freeReaderPos k % (Reader.rem c + 1) }
    | _ => .dead { buf := Config.freeReaderBytes k, n := Config.freeReaderPos k }

/-- TAKING AN ERROR, `raise E` (00_scope.md R13, 60_exceptions.md R130): STATUS becomes FAULT(E), the response carries
E's code and no result, the cursors may no longer be used, and W, R, D.out and E.i hold what the spec leaves
unspecified. Nothing is saved, there is no handler and no mode. -/
def raise (e : ErrorKind) (s : State) : State :=
  { s with
    w := Slot.writerAfter e s.free s.w
    r := Slot.readerAfter e s.free s.r
    d := { s.d with out := Config.freeDecodeOut s.free }
    encIdx := Config.freeEncodeIndex s.free
    status := .fault e
    resp := Response.bare (ErrorKind.code e)
    free := s.free + 1 }

/-- A rejection (R134, C9): the response carries IllegalOperation and nothing else changes, STATUS included. -/
def reject (s : State) : State := { s with resp := Response.bare (ErrorKind.code .illegalOperation) }

/-- An error of FT.SELECT: raised from OK; in a fault state STATUS stays as it is (R134; log 11). -/
def raiseFromOk (e : ErrorKind) (s : State) : State :=
  match s.status with
  | .ok => raise e s
  | .fault _ => { s with resp := Response.bare (ErrorKind.code e) }

/-- The writer cursor an operation may use: STATUS is OK and the cursor exists (R76, R134). -/
def usableWriter (s : State) : Option Writer :=
  match s.status, s.w with
  | .ok, .live c => some c
  | _, _ => none

/-- The reader cursor an operation may use (R85, R87, R134). -/
def usableReader (s : State) : Option Reader :=
  match s.status, s.r with
  | .ok, .live c => some c
  | _, _ => none

/-- LEAVING A FAULT: creating a writer cursor writes STATUS OK (40_bitwriter.md R75, R134). -/
def newWriter (s : State) : State := { s with w := .live Writer.empty, status := .ok }

/-- LEAVING A FAULT: creating a reader cursor writes STATUS OK (41_bitreader.md R83, R134). -/
def newReader (b : List Byte) (s : State) : State := { s with r := .live (Reader.over b), status := .ok }

/-- An operation on the writer cursor: rejected, before any other test, where none may be used (R129, R134). -/
def onWriter (s : State) (k : Writer → State) : Result :=
  match usableWriter s with
  | some c => .next (k c)
  | none => .next (reject s)

/-- An operation on the reader cursor: rejected, before any other test, where none may be used (R129, R134). -/
def onReader (s : State) (k : Reader → State) : Result :=
  match usableReader s with
  | some c => .next (k c)
  | none => .next (reject s)

/-- `encode_value` on an EncodedValue (43_codec_encode.md R102): the prefix, then the payload. -/
def emitCodeWord (w : Writer) (ev : EncodedValue) : Writer :=
  Writer.emit (Writer.emit w (Form.prefixValue ev.form) (Form.prefixBits ev.form)) ev.adj (Form.payloadBits ev.form)

/-- The loop of CODEC.ENCODE from `E.i = i` (R104): the check of R103 is made when the value's turn comes. -/
def encodeLoop : List Int → Writer → Nat → Except ErrorKind (Writer × Nat)
  | [], w, i => .ok (w, i)
  | v :: vs, w, i =>
    match selectForm v with
    | .ok ev => encodeLoop vs (emitCodeWord w ev) (i + 1)
    | .error e => .error e

/-- `D.out <- D.out ++ [value]`, and Done when the count is reached (44_codec_decode.md R109, R110). -/
def DecodeRecord.push (d : DecodeRecord) (v : Nat) : DecodeRecord :=
  { d with
    out := d.out ++ [BitVec.ofNat 64 v]
    state := if d.out.length + 1 = d.count.toNat then .done else d.state }

/-- What one code word does to the reader and the decode record (R110), its tests in the order of R129. -/
def codeWordPass (f : Form) (payload : Nat) (r : Reader) (d : DecodeRecord) :
    Except ErrorKind (Reader × DecodeRecord) :=
  if Reader.rem r = 0 then .error .overRequest
  else if Reader.rem r < Form.width f then .error .truncatedInput
  else if maxValue < Form.base f + payload then .error .range
  else .ok (Reader.skip r (Form.width f), DecodeRecord.push d (Form.base f + payload))

/-- The error the codec reports where no code word can be read (R128). -/
def streamError : DecodeError → ErrorKind
  | .noBits => .overRequest
  | .truncated => .truncatedInput
  | .notACommand => .truncatedInput

/-- `decode_value` (R110): read the code word at `R.n` and run it. -/
def decodePass (r : Reader) (d : DecodeRecord) : Except ErrorKind (Reader × DecodeRecord) :=
  match decodeAt r.buf r.n with
  | .ok (f, payload) => codeWordPass f payload r d
  | .error e => .error (streamError e)

/-- The loop of CODEC.DECODE (R115), at most `fuel` passes. -/
def decodeLoop : Nat → Reader → DecodeRecord → Except ErrorKind (Reader × DecodeRecord)
  | 0, r, d => .ok (r, d)
  | fuel + 1, r, d =>
    match d.state with
    | .done => .ok (r, d)
    | .awaitingValue =>
      match decodePass r d with
      | .ok (r', d') => decodeLoop fuel r' d'
      | .error e => .error e

/-- Passes enough for CODEC.DECODE to end (70_reset_and_hazards.md R157). -/
def decodePasses (count : BitVec 64) (b : List Byte) : Nat := min count.toNat (4 * b.length) + 1

/-- The decode record at the start of CODEC.DECODE (R115). -/
def DecodeRecord.start (count : BitVec 64) : DecodeRecord :=
  { state := if count = 0 then .done else .awaitingValue, count := count, out := [] }

/-- The start of CODEC.DECODE: BR.NEW of the bytes, then a new decode record (R115). -/
def startDecode (s : State) : State :=
  { newReader (bytesOperand s) s with d := DecodeRecord.start (countOperand s) }

/-- The end of CODEC.DECODE: VALUES_OUT is D.out, and R is discarded (R115). -/
def finishDecode (s : State) : State :=
  State.answer { s with r := .absent } { noResult with valuesOut := some s.d.out }

/-- The reader a code word runs on: STATUS is OK, the machine awaits a value and R may be used (R109, R110).
DESIGN CHOICE (log 28): State has no mark of its own for a call in progress. A decode call that failed leaves D.state
AwaitingValue (log 9); once BR.NEW has cleared the fault these three conditions hold although the call has ended, and
a code word given to `exec` there takes its step on the new reader and appends to the free `D.out`. `step` never gives
`exec` a code word, so no request reaches this. -/
def callReader (s : State) : Option Reader :=
  match usableReader s, s.d.state with
  | some c, .awaitingValue => some c
  | _, _ => none

/-- The effect of a code word of the stream (R110). Where `callReader` gives no reader the code word is data that nobody
reads and nothing happens (R109, R116; log 13; for the state after a failed call and BR.NEW, log 28). -/
def codeWord (f : Form) (payload : Nat) (s : State) : Result :=
  match callReader s with
  | none => .next s
  | some r =>
    match codeWordPass f payload r s.d with
    | .ok (r', d') => .next { s with r := .live r', d := d' }
    | .error e => .next (raise e s)

/-- Takes a request: its code and operands into their registers (R71; log 1). -/
def State.load (s : State) (q : Request) (rest : List Request) : State :=
  { s with op := q.op, args := q.args, inbox := rest }

/-- The request that runs a word of spec/opcode_table.json: the command itself with its operands zero and empty, or, for
a code word, the CODEC.DECODE of its bytes for one value, which reads and runs exactly it (log 14). -/
def wordRequest (nbits w : Nat) : Request :=
  if isCommandWord nbits w then { op := BitVec.ofNat 4 w, args := Operands.zero }
  else { op := 0x9, args := { Operands.zero with bytesIn := wordBytes nbits w, count := 1 } }

end Sys2Proof.Machine
end

