-- ==== Sys2Proof/Machine/BitReader.lean ====
section
/-! DEFINITION. The BitReader operations (41_bitreader.md). -/

namespace Sys2Proof.Machine

/-- BR.NEW (R83): the bytes are copied (R46). -/
def execBrNew (s : State) : Result := .next (State.answer (newReader (bytesOperand s) s) noResult)

/-- BR.PEEK (R85): the bits that remain, up to NBITS, zero-filled above, and their count (R86). -/
def execBrPeek (s : State) : Result :=
  onReader s fun c =>
    if maxPeekBits < nbitsOperand s then raise .illegalOperation s
    else if Reader.rem c = 0 then raise .endOfStream s
    else
      State.answer s
        { noResult with
          data := some (BitVec.ofNat 64 (Reader.look c (min (nbitsOperand s) (Reader.rem c))))
          avail := some (BitVec.ofNat 4 (min (nbitsOperand s) (Reader.rem c))) }

/-- BR.READBITS (R87). -/
def execBrReadBits (s : State) : Result :=
  onReader s fun c =>
    if maxReadBits < nbitsOperand s then raise .illegalOperation s
    else if Reader.rem c < nbitsOperand s then raise .endOfStream s
    else
      State.answer { s with r := .live (Reader.skip c (nbitsOperand s)) }
        { noResult with data := some (BitVec.ofNat 64 (Reader.look c (nbitsOperand s))) }

end Sys2Proof.Machine
end

