-- ==== Sys2Proof/Machine/BitWriter.lean ====
section
/-! DEFINITION. The BitWriter operations (40_bitwriter.md). -/

namespace Sys2Proof.Machine

/-- BW.NEW (R75). -/
def execBwNew (s : State) : Result := .next (State.answer (newWriter s) noResult)

/-- BW.EMIT (R76); NBITS above 64 raises IllegalOperation and appends nothing (R81). -/
def execBwEmit (s : State) : Result :=
  onWriter s fun c =>
    if maxEmitBits < nbitsOperand s then raise .illegalOperation s
    else State.answer { s with w := .live (Writer.emit c (emitValue s) (nbitsOperand s)) } noResult

/-- BW.FINALIZE (R78): a pure read of `W.buf` (D19). -/
def execBwFinalize (s : State) : Result :=
  onWriter s fun c => State.answer s { noResult with bytesOut := some c.buf }

end Sys2Proof.Machine
end

