-- ==== Sys2Proof/Machine/CodeWord.lean ====
section
/-! DEFINITION. The code words of the wire format as the decoder runs them (30_encoding.md R55 to R62,
44_codec_decode.md R110). CODEC.DECODE runs one a pass (log 13). -/

namespace Sys2Proof.Machine

/-- Code word of form 1 (R55, R110). -/
def execCwF1 (d : Nat) (s : State) : Result := codeWord (.reg .f1) d s

/-- Code word of form 2 (R56, R110). -/
def execCwF2 (d : Nat) (s : State) : Result := codeWord (.reg .f2) d s

/-- Code word of form 3 (R57, R110). -/
def execCwF3 (d : Nat) (s : State) : Result := codeWord (.reg .f3) d s

/-- Code word of form 4 (R58, R110). -/
def execCwF4 (d : Nat) (s : State) : Result := codeWord (.reg .f4) d s

/-- Code word of form 5 (R59, R110). -/
def execCwF5 (d : Nat) (s : State) : Result := codeWord (.reg .f5) d s

/-- Code word of form 6 (R60, R110). -/
def execCwF6 (d : Nat) (s : State) : Result := codeWord (.reg .f6) d s

/-- Code word of form 7 (R61, R110). -/
def execCwF7 (d : Nat) (s : State) : Result := codeWord (.reg .f7) d s

/-- Raw code word, N = 2, 3 payload bytes (R62, R110). -/
def execCwRawN2 (d : Nat) (s : State) : Result := codeWord (.raw .n2) d s

/-- Raw code word, N = 3, 4 payload bytes (R62, R110). -/
def execCwRawN3 (d : Nat) (s : State) : Result := codeWord (.raw .n3) d s

/-- Raw code word, N = 4, 5 payload bytes (R62, R110). -/
def execCwRawN4 (d : Nat) (s : State) : Result := codeWord (.raw .n4) d s

/-- Raw code word, N = 5, 6 payload bytes (R62, R110). -/
def execCwRawN5 (d : Nat) (s : State) : Result := codeWord (.raw .n5) d s

/-- Raw code word, N = 6, 7 payload bytes (R62, R110). -/
def execCwRawN6 (d : Nat) (s : State) : Result := codeWord (.raw .n6) d s

/-- Raw code word, N = 7, 8 payload bytes (R62, R110; a value above 2^64 − 1 raises RangeError, R114). -/
def execCwRawN7 (d : Nat) (s : State) : Result := codeWord (.raw .n7) d s

end Sys2Proof.Machine
end

