-- ==== Sys2Proof/Machine/Codec.lean ====
section
/-! DEFINITION. The codec operations (43_codec_encode.md, 44_codec_decode.md), each one atomic step (20_memory.md R44;
log 21). -/

namespace Sys2Proof.Machine

/-- CODEC.ENCODE (R104): BW.NEW, the loop, BW.FINALIZE, W discarded. -/
def execCodecEncode (s : State) : Result :=
  match encodeLoop (valuesOperand s) Writer.empty 0 with
  | .ok (w, i) =>
    .next
      (State.answer { newWriter s with w := .absent, encIdx := i } { noResult with bytesOut := some w.buf })
  | .error e => .next (raise e { newWriter s with encIdx := 0 })

/-- CODEC.DECODE (R115): BR.NEW, the loop, VALUES_OUT, R discarded. -/
def execCodecDecode (s : State) : Result :=
  match
    decodeLoop (decodePasses (countOperand s) (bytesOperand s)) (Reader.over (bytesOperand s))
      (DecodeRecord.start (countOperand s))
  with
  | .ok (_, d) => .next (finishDecode { startDecode s with d := d })
  | .error e => .next (raise e (startDecode s))

end Sys2Proof.Machine
end

