-- ==== Sys2Proof/Machine/FormTable.lean ====
section
/-! DEFINITION. The FormTable operations (42_formtable.md). They need no cursor and are accepted in any state
(60_exceptions.md R134). -/

namespace Sys2Proof.Machine

/-- FT.SELECT (R92, R93). -/
def execFtSelect (s : State) : Result :=
  match selectForm (selectValue s) with
  | .ok ev => .next (State.answer s { noResult with form := some (.selected ev) })
  | .error e => .next (raiseFromOk e s)

/-- FT.CLASSIFY (R96): total, no fault (R98). -/
def execFtClassify (s : State) : Result :=
  .next
    (State.answer s
      { noResult with
        form :=
          some
            (.classified (classify (windowOperand s)) (Form.prefixBits (classify (windowOperand s)))
              (Form.payloadBits (classify (windowOperand s))) (Form.base (classify (windowOperand s)))) })

end Sys2Proof.Machine
end

