-- ==== Sys2Proof/Machine/Reserved.lean ====
section
/-! DEFINITION. The reserved operation codes 0xA to 0xF (30_encoding.md R72): IllegalOperation, no cursor changed. -/

namespace Sys2Proof.Machine

/-- Reserved code 0xA (R72). -/
def execReservedA (s : State) : Result := .next (raise .illegalOperation s)

/-- Reserved code 0xB (R72). -/
def execReservedB (s : State) : Result := .next (raise .illegalOperation s)

/-- Reserved code 0xC (R72). -/
def execReservedC (s : State) : Result := .next (raise .illegalOperation s)

/-- Reserved code 0xD (R72). -/
def execReservedD (s : State) : Result := .next (raise .illegalOperation s)

/-- Reserved code 0xE (R72). -/
def execReservedE (s : State) : Result := .next (raise .illegalOperation s)

/-- Reserved code 0xF (R72). -/
def execReservedF (s : State) : Result := .next (raise .illegalOperation s)

end Sys2Proof.Machine
end

