-- ==== Sys2Proof/Machine/Dispatch.lean ====
section
/-! DEFINITION. One arm per instruction, each one call of its meaning. -/

namespace Sys2Proof.Machine

def exec (i : Instr) (s : State) : Host.Outcome State Fault Refusal :=
  match i with
  | .bwNew => Sys2Proof.Machine.execBwNew s
  | .bwEmit => Sys2Proof.Machine.execBwEmit s
  | .bwFinalize => Sys2Proof.Machine.execBwFinalize s
  | .brNew => Sys2Proof.Machine.execBrNew s
  | .brPeek => Sys2Proof.Machine.execBrPeek s
  | .brReadBits => Sys2Proof.Machine.execBrReadBits s
  | .ftSelect => Sys2Proof.Machine.execFtSelect s
  | .ftClassify => Sys2Proof.Machine.execFtClassify s
  | .codecEncode => Sys2Proof.Machine.execCodecEncode s
  | .codecDecode => Sys2Proof.Machine.execCodecDecode s
  | .reservedA => Sys2Proof.Machine.execReservedA s
  | .reservedB => Sys2Proof.Machine.execReservedB s
  | .reservedC => Sys2Proof.Machine.execReservedC s
  | .reservedD => Sys2Proof.Machine.execReservedD s
  | .reservedE => Sys2Proof.Machine.execReservedE s
  | .reservedF => Sys2Proof.Machine.execReservedF s
  | .cwF1 d => Sys2Proof.Machine.execCwF1 d s
  | .cwF2 d => Sys2Proof.Machine.execCwF2 d s
  | .cwF3 d => Sys2Proof.Machine.execCwF3 d s
  | .cwF4 d => Sys2Proof.Machine.execCwF4 d s
  | .cwF5 d => Sys2Proof.Machine.execCwF5 d s
  | .cwF6 d => Sys2Proof.Machine.execCwF6 d s
  | .cwF7 d => Sys2Proof.Machine.execCwF7 d s
  | .cwRawN2 d => Sys2Proof.Machine.execCwRawN2 d s
  | .cwRawN3 d => Sys2Proof.Machine.execCwRawN3 d s
  | .cwRawN4 d => Sys2Proof.Machine.execCwRawN4 d s
  | .cwRawN5 d => Sys2Proof.Machine.execCwRawN5 d s
  | .cwRawN6 d => Sys2Proof.Machine.execCwRawN6 d s
  | .cwRawN7 d => Sys2Proof.Machine.execCwRawN7 d s

end Sys2Proof.Machine
end

