-- ==== Sys2Proof/Machine/Step.lean ====
section
/-! DEFINITION. One step of the machine: take the next request and run its operation (20_memory.md R44, R49); and one
pass of a decode call seen alone, which the composition of CODEC.DECODE is stated with (44_codec_decode.md R110). -/

namespace Sys2Proof.Machine

open Sys2Proof

/-- One operation, from request to response. With no request nothing happens (log 1). -/
def step (s : State) : Host.Outcome State Fault Refusal :=
  match s.inbox with
  | [] => .next s
  | q :: rest => exec (decodeCommand q.op) (State.load s q rest)

/-- The state whose next step runs the instruction of a word of spec/opcode_table.json: its request stands first among
the requests to come (log 14). -/
def State.withFetchWord (s : State) (nbits w : Nat) : State := { s with inbox := wordRequest nbits w :: s.inbox }

/-- One pass of a decode call in progress: the code word at `R.n` is read, decoded and run by `exec` (R110). Between
operations no call is in progress (R44), so `step` does not use it; CODEC.DECODE is its iteration. What
it answers where a call has failed and BR.NEW has followed is the model's (log 28). -/
def callStep (s : State) : Host.Outcome State Fault Refusal :=
  match callReader s with
  | none => .next s
  | some r =>
    match decodeAt r.buf r.n with
    | .ok (f, payload) => exec (codeWordInstr f payload) s
    | .error e => .next (raise (streamError e) s)

end Sys2Proof.Machine
end

