-- ==== Sys2Proof/Machine/External.lean ====
section
/-! DEFINITION. The zigzag mapping, an interface outside the block (00_scope.md R5, R11, R12; log 24): no operation
uses it. -/

namespace Sys2Proof.Machine

/-- `toUnsigned(n)`: `n<<1` if n ≥ 0, else `((−n−1)<<1)|1` (R11). -/
def toUnsigned (n : Int) : Nat := if 0 ≤ n then n.toNat * 2 else (-n - 1).toNat * 2 + 1

/-- `fromUnsigned(u)`: `u>>1` if u is even, else `−(u>>1)−1` (R12). -/
def fromUnsigned (u : Nat) : Int := if u % 2 = 0 then ((u / 2 : Nat) : Int) else -((u / 2 : Nat) : Int) - 1

end Sys2Proof.Machine
end

