-- ==== Sys2Proof/WellFormed.lean ====
section
/-! DEFINITION. When an instruction can be written: a code word's payload fits its `D` bits (30_encoding.md R53, R67;
the widths of R55 to R62). An operation carries no operand and is always well formed. -/

namespace Sys2Proof

/-- The payload of each code word is below 2^D (R67). -/
def Instr.wf : Instr → Bool
  | .cwF1 d => decide (d < 2 ^ 1)
  | .cwF2 d => decide (d < 2 ^ 2)
  | .cwF3 d => decide (d < 2 ^ 5)
  | .cwF4 d => decide (d < 2 ^ 8)
  | .cwF5 d => decide (d < 2 ^ 12)
  | .cwF6 d => decide (d < 2 ^ 16)
  | .cwF7 d => decide (d < 2 ^ 19)
  | .cwRawN2 d => decide (d < 2 ^ 24)
  | .cwRawN3 d => decide (d < 2 ^ 32)
  | .cwRawN4 d => decide (d < 2 ^ 40)
  | .cwRawN5 d => decide (d < 2 ^ 48)
  | .cwRawN6 d => decide (d < 2 ^ 56)
  | .cwRawN7 d => decide (d < 2 ^ 64)
  | .bwNew | .bwEmit | .bwFinalize | .brNew | .brPeek | .brReadBits | .ftSelect | .ftClassify
  | .codecEncode | .codecDecode
  | .reservedA | .reservedB | .reservedC | .reservedD | .reservedE | .reservedF => true

end Sys2Proof
end

