-- ==== Sys2Proof/Safety.lean ====
section
/-! DEFINITION. What a good state is, and the words the statements use: the bits of a code word, the requests a host
can make, and the responses it sees. -/

namespace Sys2Proof.Machine

open Sys2Proof

/-- A cursor that an operation may use. -/
def Slot.isLive {α : Type} : Slot α → Bool
  | .live _ => true
  | _ => false

/-- Good states: live cursors keep their canonical form (10_state.md R24, R25); in a fault state no cursor may be used
(60_exceptions.md R130, R134); MalformedPrefixError and code 7 never appear (R124, R127). -/
structure State.Good (s : State) : Prop where
  memory : Memory.wf s.w s.r = true
  faultKillsCursors : s.status ≠ .ok → Slot.isLive s.w = false ∧ Slot.isLive s.r = false
  statusKind : s.status ≠ .fault .malformedPrefix
  responseCode : s.resp.code ≠ ErrorKind.code .malformedPrefix ∧ s.resp.code ≠ 7

/-- A value of the domain 0 .. 2^64−1 (00_scope.md R8). -/
def InDomain (v : Int) : Prop := 0 ≤ v ∧ v ≤ (maxValue : Int)

/-- The bits of a code word in stream order (30_encoding.md R53). -/
def codeBits (f : Form) (d : Nat) : List Bool :=
  fieldBits (encodeCodeWord f d).word (encodeCodeWord f d).nbits

/-- The bits of the code word the encoder gives a value (R53, 43_codec_encode.md R102); none outside the domain. -/
def valueBits (v : Int) : List Bool :=
  match selectForm v with
  | .ok ev => codeBits ev.form ev.adj
  | .error _ => []

/-- The width of the code word the encoder gives a value. -/
def valueWidth (v : Int) : Nat := (valueBits v).length

/-- `BW.NEW` -/
def reqBwNew : Request := { op := 0x0, args := Operands.zero }
/-- `BW.EMIT v, n` -/
def reqEmit (v : Int) (n : Nat) : Request :=
  { op := 0x1, args := { Operands.zero with value := v, nbits := BitVec.ofNat 7 n } }
/-- `BW.FINALIZE` -/
def reqFinalize : Request := { op := 0x2, args := Operands.zero }
/-- `BR.NEW b` -/
def reqBrNew (b : List Byte) : Request := { op := 0x3, args := { Operands.zero with bytesIn := b } }
/-- `BR.PEEK n` -/
def reqPeek (n : Nat) : Request := { op := 0x4, args := { Operands.zero with nbits := BitVec.ofNat 7 n } }
/-- `BR.READBITS n` -/
def reqReadBits (n : Nat) : Request := { op := 0x5, args := { Operands.zero with nbits := BitVec.ofNat 7 n } }
/-- `FT.SELECT v` -/
def reqSelect (v : Int) : Request := { op := 0x6, args := { Operands.zero with value := v } }
/-- `FT.CLASSIFY p` -/
def reqClassify (p : BitVec 8) : Request := { op := 0x7, args := { Operands.zero with window := p } }
/-- `CODEC.ENCODE vs` -/
def reqEncode (vs : List Int) : Request := { op := 0x8, args := { Operands.zero with valuesIn := vs } }
/-- `CODEC.DECODE b, c` -/
def reqDecode (b : List Byte) (c : Nat) : Request :=
  { op := 0x9, args := { Operands.zero with bytesIn := b, count := BitVec.ofNat 64 c } }

/-- What the machine does when the host makes this request next. -/
def call (q : Request) (s : State) : Result := step { s with inbox := [q] }

/-- The responses a host sees that makes these requests one after another. -/
def responses : List Request → State → List Response
  | [], _ => []
  | q :: qs, s =>
    match call q s with
    | .next t => t.resp :: responses qs t
    | _ => []

/-- The primitive operations CODEC.ENCODE expands to for one value (30_encoding.md R74). -/
def valueRequests (v : Int) : List Request :=
  match selectForm v with
  | .ok ev =>
    [reqSelect v, reqEmit (Form.prefixValue ev.form) (Form.prefixBits ev.form),
      reqEmit ev.adj (Form.payloadBits ev.form)]
  | .error _ => [reqSelect v]

/-- The primitive operations CODEC.ENCODE expands to (R74). -/
def encodeProgram (vs : List Int) : List Request := reqBwNew :: vs.flatMap valueRequests ++ [reqFinalize]

/-- The cursor of a place, if it may be used. -/
def Slot.usable {α : Type} : Slot α → Option α
  | .live c => some c
  | _ => none

/-- Whether two states look alike to every operation: the same STATUS and the same cursors that may be used. Contents of
cursors that may not be used, the codec records, the registers of the last command and the free values play no part
(60_exceptions.md R130). -/
def SameUsable (s t : State) : Prop :=
  s.status = t.status ∧ Slot.usable s.w = Slot.usable t.w ∧ Slot.usable s.r = Slot.usable t.r

/-- What code word `i` does, told by numbers alone: `width` bits wide, its value `base + d` (44_codec_decode.md
R110). In a decode call with enough bits left and the value in the domain it consumes its width, appends its value, and
ends the call's machine when the count is reached; nothing else changes. The conditions also hold after a failed call
and BR.NEW, where that the code word runs is the model's choice (log 28). -/
def CodeWordDoes (i : Instr) (width base d : Nat) : Prop :=
  ∀ (s : State) (c : Reader), s.status = .ok → s.r = .live c → s.d.state = .awaitingValue →
    c.n + width ≤ 8 * c.buf.length → base + d ≤ maxValue →
    exec i s =
      .next
        { s with
          r := .live { buf := c.buf, n := c.n + width }
          d :=
            { state := if s.d.out.length + 1 = s.d.count.toNat then .done else .awaitingValue
              count := s.d.count
              out := s.d.out ++ [BitVec.ofNat 64 (base + d)] } }

/-- How code word `i` fails for want of bits (R111, R112), under the same conditions as `CodeWordDoes`. -/
def CodeWordShort (i : Instr) (width : Nat) : Prop :=
  ∀ (s : State) (c : Reader), s.status = .ok → s.r = .live c → s.d.state = .awaitingValue →
    (8 * c.buf.length ≤ c.n → exec i s = .next (raise .overRequest s)) ∧
    (c.n < 8 * c.buf.length → 8 * c.buf.length < c.n + width → exec i s = .next (raise .truncatedInput s))

/-- `k` passes of a decode call, each by `callStep`. -/
def callSteps : Nat → State → Result
  | 0, s => .next s
  | k + 1, s =>
    match callStep s with
    | .next t => callSteps k t
    | .fault e => .fault e
    | .refused e => .refused e

end Sys2Proof.Machine
end

