-- ==== Sys2Proof/Certificates/Slice0/Obligations.lean ====
section
/-! DEFINITION. The statements for the provers, from the numbered rules of spec/. -/

open Sys2Proof Sys2Proof.Machine

/-! ### Encodings -/

/-- Each operation code of 30_encoding.md R71 and R72, and the example code words of R55 to R62 with the control bytes
of R62, as the rules print them, decode to their instructions. -/
def Obligations.WrittenWordsDecode : Prop :=
  [0x0, 0x1, 0x2, 0x3, 0x4, 0x5, 0x6, 0x7, 0x8, 0x9, 0xA, 0xB, 0xC, 0xD, 0xE, 0xF].map decodeCommand =
    [.bwNew, .bwEmit, .bwFinalize, .brNew, .brPeek, .brReadBits, .ftSelect, .ftClassify, .codecEncode, .codecDecode,
      .reservedA, .reservedB, .reservedC, .reservedD, .reservedE, .reservedF] ∧
  decode .stream { nbits := 2, word := 0b10 } = .ok (.cwF1 1) ∧
  decode .stream { nbits := 4, word := 0xD } = .ok (.cwF2 3) ∧
  decode .stream { nbits := 8, word := 0xFB } = .ok (.cwF3 31) ∧
  decode .stream { nbits := 16, word := 0xFF1F } = .ok (.cwF4 255) ∧
  decode .stream { nbits := 16, word := 0xFFF7 } = .ok (.cwF5 4095) ∧
  decode .stream { nbits := 24, word := 0x00003F } = .ok (.cwF6 0) ∧
  decode .stream { nbits := 24, word := 0xFFFFEF } = .ok (.cwF7 524287) ∧
  decode .stream { nbits := 32, word := 0x0000005F } = .ok (.cwRawN2 0) ∧
  decode .stream { nbits := 40, word := 0x010000007F } = .ok (.cwRawN3 0x01000000) ∧
  decode .stream { nbits := 48, word := 0x01000000009F } = .ok (.cwRawN4 0x0100000000) ∧
  decode .stream { nbits := 56, word := 0x010000000000BF } = .ok (.cwRawN5 0x010000000000) ∧
  decode .stream { nbits := 64, word := 0x01000000000000DF } = .ok (.cwRawN6 0x01000000000000) ∧
  decode .stream { nbits := 72, word := 0x0100000000000000FF } = .ok (.cwRawN7 0x0100000000000000)

/-- Decoding an encoded well-formed instruction gives it back; a code word does so whatever bits follow it in the
stream (30_encoding.md R53, R64, R66, R67). -/
def Obligations.EncodedInstructionsDecode : Prop :=
  ∀ i : Instr, i.wf = true →
    decode (portOf i) (encode i) = .ok i ∧
    (portOf i = .stream → ∀ more rest : Nat,
      decode .stream
        { nbits := (encode i).nbits + more, word := (encode i).word + 2 ^ (encode i).nbits * rest } = .ok i)

/-- What the decoder gives is well formed, belongs to its port, and its encoding is the bits it was read from. -/
def Obligations.DecodedInstructionsEncodeBack : Prop :=
  ∀ (p : Port) (c : Code) (i : Instr), decode p c = .ok i →
    i.wf = true ∧ portOf i = p ∧ (encode i).nbits ≤ c.nbits ∧
      (encode i).word = c.word % 2 ^ (encode i).nbits

/-- The patterns in stream order, none a prefix of another, and exactly one matching any eight bits (30_encoding.md
R64). The eight control bytes one by one are those of R62 and R63, and rest on the spec's decision on the bit order of
N (90_conflicts.md C1, 92_eei_decisions.md D7; log 18). -/
def Obligations.CodeIsPrefixFree : Prop :=
  ([Form.reg .f1, .reg .f2, .reg .f3, .reg .f5, .reg .f7].map fun f =>
      fieldBits (Form.prefixValue f) (Form.prefixBits f)) =
    [[false], [true, false], [true, true, false], [true, true, true, false], [true, true, true, true, false]] ∧
  ([Form.reg .f4, .reg .f6, .raw .n2, .raw .n3, .raw .n4, .raw .n5, .raw .n6, .raw .n7].map fun f =>
      fieldBits (Form.prefixValue f) (Form.prefixBits f)) =
    [[true, true, true, true, true, false, false, false], [true, true, true, true, true, true, false, false],
     [true, true, true, true, true, false, true, false], [true, true, true, true, true, true, true, false],
     [true, true, true, true, true, false, false, true], [true, true, true, true, true, true, false, true],
     [true, true, true, true, true, false, true, true], [true, true, true, true, true, true, true, true]] ∧
  (∀ f g : Form, f ≠ g →
    ¬ (fieldBits (Form.prefixValue f) (Form.prefixBits f) <+: fieldBits (Form.prefixValue g) (Form.prefixBits g))) ∧
  (∀ p : BitVec 8, ∃! f : Form, fieldBits (Form.prefixValue f) (Form.prefixBits f) <+: fieldBits p.toNat 8)

/-! ### The FormTable -/

/-- The table of 10_state.md R18, row by row: k, D, capacity, shift, top, P, PV, width, and the prefix in stream order;
and the widths of R17. -/
def Obligations.FormTableRows : Prop :=
  formWidths = [1, 2, 5, 8, 12, 16, 19] ∧
  (regForms.map fun k =>
      ((RegForm.descriptor k).index, (RegForm.descriptor k).dataBits, (RegForm.descriptor k).capacity,
        (RegForm.descriptor k).shift, (RegForm.descriptor k).top, Form.prefixBits (.reg k),
        Form.prefixValue (.reg k), Form.width (.reg k))) =
    [(1, 1, 2, 0, 1, 1, 0x00, 2), (2, 2, 4, 2, 5, 2, 0x01, 4), (3, 5, 32, 6, 37, 3, 0x03, 8),
     (4, 8, 256, 38, 293, 8, 0x1F, 16), (5, 12, 4096, 294, 4389, 4, 0x07, 16),
     (6, 16, 65536, 4390, 69925, 8, 0x3F, 24), (7, 19, 524288, 69926, 594213, 5, 0x0F, 24)] ∧
  (regForms.map fun k => fieldBits (Form.prefixValue (.reg k)) (Form.prefixBits (.reg k))) =
    [[false], [true, false], [true, true, false], [true, true, true, true, true, false, false, false],
     [true, true, true, false], [true, true, true, true, true, true, false, false], [true, true, true, true, false]]

/-- 10_state.md R19: the ranges follow one another from 0 with no gap and no overlap. -/
def Obligations.FormRangesPartition : Prop :=
  (RegForm.descriptor .f1).shift = 0 ∧
  (∀ j k : RegForm, RegForm.index k = RegForm.index j + 1 →
    (RegForm.descriptor k).shift = (RegForm.descriptor j).top + 1 ∧
    (RegForm.descriptor j).shift < (RegForm.descriptor k).shift) ∧
  (∀ v : Nat, v ≤ maxRegularized ↔
    ∃! k : RegForm, (RegForm.descriptor k).shift ≤ v ∧ v ≤ (RegForm.descriptor k).top)

/-- FT.SELECT of a value up to 594213 answers the smallest form whose top is not below it, the value less the form's
shift, and the form's width; nothing else changes. In a fault state the response's code is the fault's (the model's
reading of R71, log 10). -/
def Obligations.SelectTakesSmallestForm : Prop :=
  ∀ (s : State) (v : Nat), s.args.value = (v : Int) → v ≤ 594213 →
    ∃ k : RegForm,
      exec .ftSelect s =
        .next { s with
          resp := { Response.bare (Status.code s.status) with
            form := some (.selected
              { form := .reg k, adj := v - (RegForm.descriptor k).shift, width := Form.width (.reg k) }) } } ∧
      (RegForm.descriptor k).shift ≤ v ∧ v ≤ (RegForm.descriptor k).top ∧
      ∀ j : RegForm, RegForm.index j < RegForm.index k → (RegForm.descriptor j).top < v

/-- FT.SELECT of a value above 594213 answers raw with the least byte count, at least 3 and at most 8, that holds the
value less 594214; nothing else changes. It does so in any state (60_exceptions.md R134); that in a fault state the
response's code is the fault's is the model's reading of 30_encoding.md R71 (log 10). -/
def Obligations.SelectRawIsMinimal : Prop :=
  ∀ (s : State) (v : Nat), s.args.value = (v : Int) → 594213 < v → v ≤ maxValue →
    ∃ n : RawSize,
      exec .ftSelect s =
        .next { s with
          resp := { Response.bare (Status.code s.status) with
            form := some (.selected
              { form := .raw n, adj := v - 594214, width := 8 + 8 * (RawSize.number n + 1) }) } } ∧
      v - 594214 < 2 ^ (8 * (RawSize.number n + 1)) ∧
      (RawSize.number n = 2 ∨ 2 ^ (8 * RawSize.number n) ≤ v - 594214)

/-- FT.SELECT outside 0 .. 2^64−1: RangeError, raised from OK; in a fault state the response carries RangeError and
STATUS and all else stay (60_exceptions.md R134; the response's code there is the model's reading, log 11). -/
def Obligations.SelectOutsideDomainFails : Prop :=
  ∀ s : State, ¬ InDomain s.args.value →
    (s.status = .ok → exec .ftSelect s = .next (raise .range s)) ∧
    (s.status ≠ .ok → exec .ftSelect s = .next { s with resp := Response.bare 1 })

/-- FT.CLASSIFY on every window, by the match and mask list of 42_formtable.md R96; nothing else changes. It does so in
any state (60_exceptions.md R134); that in a fault state the response's code is the fault's is the model's reading of
30_encoding.md R71 (log 10). -/
def Obligations.ClassifyByMatchAndMask : Prop :=
  ∀ s : State, ∃ (f : Form) (pre pay base : Nat),
    exec .ftClassify s =
      .next { s with
        resp := { Response.bare (Status.code s.status) with form := some (.classified f pre pay base) } } ∧
    (s.args.window &&& 0x01 = 0x00 → (f, pre, pay, base) = (.reg .f1, 1, 1, 0)) ∧
    (s.args.window &&& 0x03 = 0x01 → (f, pre, pay, base) = (.reg .f2, 2, 2, 2)) ∧
    (s.args.window &&& 0x07 = 0x03 → (f, pre, pay, base) = (.reg .f3, 3, 5, 6)) ∧
    (s.args.window &&& 0x0F = 0x07 → (f, pre, pay, base) = (.reg .f5, 4, 12, 294)) ∧
    (s.args.window &&& 0x1F = 0x0F → (f, pre, pay, base) = (.reg .f7, 5, 19, 69926)) ∧
    (s.args.window = 0x1F → (f, pre, pay, base) = (.reg .f4, 8, 8, 38)) ∧
    (s.args.window = 0x3F → (f, pre, pay, base) = (.reg .f6, 8, 16, 4390)) ∧
    (s.args.window = 0x5F → (f, pre, pay, base) = (.raw .n2, 8, 24, 594214)) ∧
    (s.args.window = 0x7F → (f, pre, pay, base) = (.raw .n3, 8, 32, 594214)) ∧
    (s.args.window = 0x9F → (f, pre, pay, base) = (.raw .n4, 8, 40, 594214)) ∧
    (s.args.window = 0xBF → (f, pre, pay, base) = (.raw .n5, 8, 48, 594214)) ∧
    (s.args.window = 0xDF → (f, pre, pay, base) = (.raw .n6, 8, 56, 594214)) ∧
    (s.args.window = 0xFF → (f, pre, pay, base) = (.raw .n7, 8, 64, 594214))

/-- 42_formtable.md R98: how many windows each form takes, and that FT.CLASSIFY raises nothing. -/
def Obligations.ClassifyIsTotal : Prop :=
  (allForms.map fun f => ((List.range 256).filter fun p => classify (BitVec.ofNat 8 p) = f).length) =
    [128, 64, 32, 1, 16, 1, 8, 1, 1, 1, 1, 1, 1] ∧
  (∀ p : BitVec 8, p.toNat % 32 = 31 ↔
    classify p ∈ [Form.reg .f4, .reg .f6, .raw .n2, .raw .n3, .raw .n4, .raw .n5, .raw .n6, .raw .n7]) ∧
  (∀ s : State, ∃ t, exec .ftClassify s = .next t ∧ t.status = s.status)

/-- 42_formtable.md R99: a window whose bits from `m` on are fill. Where the prefix of the form it names lies within the
valid bits, every fill names that form; where it does not, the form is wider than the valid bits. -/
def Obligations.ClassifyOfFillIsHarmless : Prop :=
  ∀ (m : Nat) (p : BitVec 8), m < 8 →
    (Form.prefixBits (classify p) ≤ m → ∀ q : BitVec 8, q.toNat % 2 ^ m = p.toNat % 2 ^ m → classify q = classify p) ∧
    (m < Form.prefixBits (classify p) → m < Form.width (classify p))

/-- 42_formtable.md R101: SELECT and CLASSIFY agree on every value of the domain. -/
def Obligations.SelectAndClassifyAgree : Prop :=
  ∀ (s s' : State), InDomain s.args.value →
    ∃ (t : State) (ev : EncodedValue), exec .ftSelect s = .next t ∧ t.resp.form = some (.selected ev) ∧
      (s'.args.window.toNat % 2 ^ Form.prefixBits ev.form = Form.prefixValue ev.form →
        ∃ (t' : State) (base : Nat), exec .ftClassify s' = .next t' ∧
          t'.resp.form =
            some (.classified ev.form (Form.prefixBits ev.form) (Form.payloadBits ev.form) base) ∧
          ((base + ev.adj : Nat) : Int) = s.args.value)

/-! ### Bits and buffers -/

/-- `MemRead(B, a, n)` is the sum of 20_memory.md R40. -/
def Obligations.MemReadIsTheSum : Prop :=
  ∀ (b : Memory) (a n : Nat), a + n ≤ 8 * b.length →
    Memory.read b a n =
      ∑ i ∈ Finset.range n, ((Memory.byte b ((a + i) / 8)).getD 0).toNat / 2 ^ ((a + i) % 8) % 2 * 2 ^ i

/-- `MemWrite` and `Append` (20_memory.md R41): the bits written, every other bit and every other byte as before. -/
def Obligations.MemWriteSetsOnlyItsBits : Prop :=
  (∀ (b : Memory) (a n v : Nat), a + n ≤ 8 * b.length →
    (Memory.write b a n v).length = b.length ∧
    ∀ c, Memory.bit (Memory.write b a n v) c = if a ≤ c ∧ c < a + n then v.testBit (c - a) else Memory.bit b c) ∧
  (∀ (b : Memory) (y : Byte), Memory.byte (Memory.append b y) b.length = some y ∧
    (Memory.append b y).length = b.length + 1 ∧
    ∀ i, i < b.length → Memory.byte (Memory.append b y) i = Memory.byte b i)

/-! ### BitWriter -/

/-- 40_bitwriter.md R75. -/
def Obligations.NewWriterIsEmpty : Prop :=
  decodeCommand 0x0 = .bwNew ∧
  ∀ s : State, ∃ t, exec .bwNew s = .next t ∧
    t = { s with w := .live { buf := [], pos := 0 }, status := .ok, resp := Response.bare 0 } ∧
    exec .bwFinalize t = .next { t with resp := { Response.bare 0 with bytesOut := some [] } }

/-- BW.EMIT with NBITS up to 64 appends exactly the bits `floor(VALUE / 2^i) mod 2`, i below NBITS, in that order, and
changes nothing but the writer and the response (40_bitwriter.md R76). For a VALUE outside 64 bits, which the spec does
not give BW.EMIT, the same formula is the model's choice (log 4). -/
def Obligations.EmitAppendsLowBits : Prop :=
  ∀ (s : State) (c : Writer), s.status = .ok → s.w = .live c → Writer.wf c = true → s.args.nbits.toNat ≤ 64 →
    ∃ c' : Writer,
      exec .bwEmit s = .next { s with w := .live c', resp := Response.bare 0 } ∧
      Writer.wf c' = true ∧
      Writer.bits c' =
        Writer.bits c ++ (List.range s.args.nbits.toNat).map fun i => decide (s.args.value / 2 ^ i % 2 = 1)

/-- What BW.EMIT stores to (40_bitwriter.md R76, 20_memory.md R45): only bits from `nbits(W)` on, NBITS of them; every
byte below the one that holds bit `nbits(W)` reads as before, and the buffer grows to hold the bits. -/
def Obligations.EmitStoresOnlyAtTheEnd : Prop :=
  ∀ (s : State) (c : Writer), s.status = .ok → s.w = .live c → Writer.wf c = true → s.args.nbits.toNat ≤ 64 →
    ∃ (t : State) (c' : Writer), exec .bwEmit s = .next t ∧ t.w = .live c' ∧
      c'.buf.length = (Writer.nbits c + s.args.nbits.toNat + 7) / 8 ∧
      (∀ i, i < Writer.nbits c / 8 → Memory.byte c'.buf i = Memory.byte c.buf i) ∧
      (∀ a, a < Writer.nbits c → Memory.bit c'.buf a = Memory.bit c.buf a) ∧
      (∀ a, Writer.nbits c + s.args.nbits.toNat ≤ a → Memory.bit c'.buf a = false)

/-- 40_bitwriter.md R78. -/
def Obligations.FinalizeReturnsTheBytes : Prop :=
  decodeCommand 0x2 = .bwFinalize ∧
  ∀ (s : State) (c : Writer), s.status = .ok → s.w = .live c →
    exec .bwFinalize s = .next { s with resp := { Response.bare 0 with bytesOut := some c.buf } } ∧
    (Writer.wf c = true → c.buf.length = (Writer.nbits c + 7) / 8)

/-- 40_bitwriter.md R77: splitting, joining, and that only the bits of W matter. -/
def Obligations.EmitSplitsAndJoins : Prop :=
  (∀ (s : State) (c : Writer) (v n1 n2 : Nat), s.status = .ok → s.w = .live c → v ≤ maxValue → n1 + n2 ≤ 64 →
    ∃ t1 t2 t3 : State,
      call (reqEmit v (n1 + n2)) s = .next t1 ∧
      call (reqEmit (low v n1) n1) s = .next t2 ∧ call (reqEmit (v / 2 ^ n1 : Nat) n2) t2 = .next t3 ∧
      t1.w = t3.w ∧ t1.status = t3.status) ∧
  (∀ (s : State) (c : Writer) (a b n1 n2 : Nat), s.status = .ok → s.w = .live c → a ≤ maxValue → b ≤ maxValue →
    n1 + n2 ≤ 64 →
    ∃ t1 t2 t3 : State,
      call (reqEmit a n1) s = .next t1 ∧ call (reqEmit b n2) t1 = .next t2 ∧
      call (reqEmit (low a n1 + low b n2 * 2 ^ n1 : Nat) (n1 + n2)) s = .next t3 ∧
      t2.w = t3.w ∧ t2.status = t3.status) ∧
  (∀ (s s' : State) (c c' : Writer) (q : Request), q.op = 0x1 → s.status = .ok → s'.status = .ok →
    s.w = .live c → s'.w = .live c' → Writer.wf c = true → Writer.wf c' = true → Writer.bits c = Writer.bits c' →
    ∃ t t' : State, call q s = .next t ∧ call q s' = .next t' ∧ t.resp = t'.resp ∧
      (q.args.nbits.toNat ≤ 64 → t.w = t'.w))

/-- Once written, a bit of the writer's stream keeps its value until the cursor is discarded (20_memory.md R45): no
instruction but BW.NEW leaves a usable writer whose stream does not begin with the old one. -/
def Obligations.WriterIsAppendOnly : Prop :=
  ∀ (i : Instr) (s t : State) (c c' : Writer), exec i s = .next t → s.w = .live c → t.w = .live c' →
    Writer.wf c = true → i ≠ .bwNew → Writer.bits c <+: Writer.bits c'

/-! ### BitReader -/

/-- 41_bitreader.md R83. -/
def Obligations.NewReaderHoldsTheBytes : Prop :=
  decodeCommand 0x3 = .brNew ∧
  ∀ s : State,
    exec .brNew s =
      .next { s with r := .live { buf := s.args.bytesIn, n := 0 }, status := .ok, resp := Response.bare 0 } ∧
    Reader.rem { buf := s.args.bytesIn, n := 0 } = 8 * s.args.bytesIn.length

/-- BR.PEEK answers the bits that remain, up to NBITS, zero above them, and their count; nothing else changes
(41_bitreader.md R85, R86). -/
def Obligations.PeekShowsTheNextBits : Prop :=
  ∀ (s : State) (c : Reader), s.status = .ok → s.r = .live c → s.args.nbits.toNat ≤ 8 → c.n < 8 * c.buf.length →
    ∃ x : BitVec 64,
      exec .brPeek s =
        .next { s with
          resp := { Response.bare 0 with
            data := some x
            avail := some (BitVec.ofNat 4 (min s.args.nbits.toNat (8 * c.buf.length - c.n))) } } ∧
      ∀ i, x.getLsbD i =
        (decide (i < min s.args.nbits.toNat (8 * c.buf.length - c.n)) && Memory.bit c.buf (c.n + i))

/-- BR.READBITS answers the next NBITS bits, first bit lowest, and consumes them; nothing else changes
(41_bitreader.md R87). -/
def Obligations.ReadBitsConsumes : Prop :=
  ∀ (s : State) (c : Reader), s.status = .ok → s.r = .live c → s.args.nbits.toNat ≤ 64 →
    s.args.nbits.toNat ≤ 8 * c.buf.length - c.n →
    ∃ x : BitVec 64,
      exec .brReadBits s =
        .next { s with
          r := .live { buf := c.buf, n := c.n + s.args.nbits.toNat }
          resp := { Response.bare 0 with data := some x } } ∧
      ∀ i, x.getLsbD i = (decide (i < s.args.nbits.toNat) && Memory.bit c.buf (c.n + i))

/-- BR.PEEK with no bit left, and BR.READBITS with fewer than NBITS left, raise EndOfStream; the buffer is as it was and
`R.n` is somewhere from where it was to the end (41_bitreader.md R85, R87, R88, 93_implementation_defined.md U8). -/
def Obligations.EndOfStreamIsRaised : Prop :=
  ∀ (s : State) (c : Reader), s.status = .ok → s.r = .live c → c.n ≤ 8 * c.buf.length →
    (c.n = 8 * c.buf.length → s.args.nbits.toNat ≤ 8 → exec .brPeek s = .next (raise .endOfStream s)) ∧
    (8 * c.buf.length - c.n < s.args.nbits.toNat → s.args.nbits.toNat ≤ 64 →
      exec .brReadBits s = .next (raise .endOfStream s)) ∧
    ∃ k, c.n ≤ k ∧ k ≤ 8 * c.buf.length ∧ (raise .endOfStream s).r = .dead { buf := c.buf, n := k }

/-- NBITS beyond the bound, 64 for BW.EMIT and BR.READBITS, 8 for BR.PEEK: IllegalOperation, the cursor's contents
unchanged, nothing appended, even where no bit remains (40_bitwriter.md R81, 41_bitreader.md R89, 60_exceptions.md R126,
R129). That the cursor may not be used before a new one is made is the model's reading (log 6). -/
def Obligations.OverBoundRaises : Prop :=
  (∀ (s : State) (c : Writer), s.status = .ok → s.w = .live c → 64 < s.args.nbits.toNat →
    exec .bwEmit s = .next (raise .illegalOperation s) ∧ (raise .illegalOperation s).w = .dead c) ∧
  (∀ (s : State) (c : Reader), s.status = .ok → s.r = .live c →
    (8 < s.args.nbits.toNat → exec .brPeek s = .next (raise .illegalOperation s)) ∧
    (64 < s.args.nbits.toNat → exec .brReadBits s = .next (raise .illegalOperation s)) ∧
    (raise .illegalOperation s).r = .dead c)

/-- 41_bitreader.md R90: PEEK shows what READBITS gives, reads split, and the reader mirrors the writer. -/
def Obligations.ReaderMirrorsWriter : Prop :=
  (∀ (s : State) (c : Reader) (n : Nat), s.status = .ok → s.r = .live c → n ≤ min 8 (Reader.rem c) → Reader.rem c ≠ 0 →
    ∃ t t' : State, call (reqPeek n) s = .next t ∧ call (reqReadBits n) s = .next t' ∧ t.resp.data = t'.resp.data) ∧
  (∀ (s : State) (c : Reader) (n1 n2 : Nat), s.status = .ok → s.r = .live c → n1 + n2 ≤ 64 → n1 + n2 ≤ Reader.rem c →
    ∃ (t1 t2 t3 : State) (a b : Nat),
      call (reqReadBits n1) s = .next t1 ∧ call (reqReadBits n2) t1 = .next t2 ∧
      call (reqReadBits (n1 + n2)) s = .next t3 ∧
      t1.resp.data = some (BitVec.ofNat 64 a) ∧ t2.resp.data = some (BitVec.ofNat 64 b) ∧ a < 2 ^ n1 ∧ b < 2 ^ n2 ∧
      t3.resp.data = some (BitVec.ofNat 64 (a + b * 2 ^ n1)) ∧ t2.r = t3.r) ∧
  (∀ (s s' : State) (fields : List (Nat × Nat)), (∀ p ∈ fields, p.1 ≤ maxValue ∧ p.2 ≤ 64) →
    ∃ bytes : List Byte,
      (responses (reqBwNew :: fields.map (fun p => reqEmit p.1 p.2) ++ [reqFinalize]) s).getLast? =
        some { Response.bare 0 with bytesOut := some bytes } ∧
      responses (reqBrNew bytes :: fields.map fun p => reqReadBits p.2) s' =
        Response.bare 0 ::
          fields.map fun p => { Response.bare 0 with data := some (BitVec.ofNat 64 (low p.1 p.2)) })

/-- The reader's bytes are never written, and its position never goes back, for as long as the cursor may be used
(20_memory.md R46, 10_state.md R25). -/
def Obligations.ReaderIsReadOnly : Prop :=
  ∀ (i : Instr) (s t : State) (c c' : Reader), exec i s = .next t → s.r = .live c → t.r = .live c' → i ≠ .brNew →
    c'.buf = c.buf ∧ c.n ≤ c'.n

/-! ### Codec: encode -/

/-- CODEC.ENCODE of values of the domain answers the bytes whose bits are the code words one after another, zero
padding after them, and leaves STATUS OK, E.i at the number of values, and no writer cursor; nothing else changes
(43_codec_encode.md R104, 30_encoding.md R70). -/
def Obligations.EncodeConcatenatesCodeWords : Prop :=
  ∀ s : State, (∀ v ∈ s.args.valuesIn, InDomain v) →
    ∃ bytes : List Byte,
      exec .codecEncode s =
        .next { s with
          w := .absent, encIdx := s.args.valuesIn.length, status := .ok
          resp := { Response.bare 0 with bytesOut := some bytes } } ∧
      bytes.length = ((s.args.valuesIn.map valueWidth).sum + 7) / 8 ∧
      (List.range (8 * bytes.length)).map (Memory.bit bytes) =
        s.args.valuesIn.flatMap valueBits ++
          List.replicate (8 * bytes.length - (s.args.valuesIn.map valueWidth).sum) false

/-- CODEC.ENCODE with any value outside the domain: RangeError, no bytes, STATUS is the fault (43_codec_encode.md R103,
R105, 60_exceptions.md R130). That no cursor is live, the reader included, is the model's reading (log 6), as is that
D's state and count stay (log 9); the operands and the requests are untouched. -/
def Obligations.EncodeOutsideDomainFails : Prop :=
  ∀ s : State, (∃ v ∈ s.args.valuesIn, ¬ InDomain v) →
    ∃ t : State, exec .codecEncode s = .next t ∧ t.status = .fault .range ∧ t.resp = Response.bare 1 ∧
      Slot.isLive t.w = false ∧ Slot.isLive t.r = false ∧
      t.d.state = s.d.state ∧ t.d.count = s.d.count ∧ t.op = s.op ∧ t.args = s.args ∧ t.inbox = s.inbox

/-- 43_codec_encode.md R108: the byte lengths. -/
def Obligations.EncodedLengths : Prop :=
  ∃ len : List Int → Nat,
    (∀ (s : State) (vs : List Int), (∀ v ∈ vs, InDomain v) →
      ∃ (t : State) (bytes : List Byte), call (reqEncode vs) s = .next t ∧
        t.resp = { Response.bare 0 with bytesOut := some bytes } ∧ bytes.length = len vs) ∧
    (∀ v : Int, 0 ≤ v → v ≤ 37 → len [v] = 1) ∧
    (∀ v : Int, 38 ≤ v → v ≤ 4389 → len [v] = 2) ∧
    (∀ v : Int, 4390 ≤ v → v ≤ 594213 → len [v] = 3) ∧
    (∀ v : Int, 594214 ≤ v → v ≤ 17371429 → len [v] = 4) ∧
    (∀ v : Int, 17371430 ≤ v → v ≤ 4295561509 → len [v] = 5) ∧
    (∀ v : Int, 4295561510 ≤ v → v ≤ 1099512221989 → len [v] = 6) ∧
    (∀ v : Int, 1099512221990 ≤ v → v ≤ 281474977304869 → len [v] = 7) ∧
    (∀ v : Int, 281474977304870 ≤ v → v ≤ 72057594038522149 → len [v] = 8) ∧
    (∀ v : Int, 72057594038522150 ≤ v → v ≤ 18446744073709551615 → len [v] = 9) ∧
    (∀ u v : Int, InDomain u → InDomain v → u ≤ v → len [u] ≤ len [v]) ∧
    (∀ vs : List Int, (∀ v ∈ vs, InDomain v) → len vs = ((vs.map valueWidth).sum + 7) / 8) ∧
    len [0, 0, 0, 0] = 1

/-- 30_encoding.md R74: the composite CODEC.ENCODE and its expansion into primitive operations answer the same
bytes. -/
def Obligations.EncodeEqualsItsExpansion : Prop :=
  ∀ (s s' : State) (vs : List Int), (∀ v ∈ vs, InDomain v) →
    ∃ (t : State) (bytes : List Byte), call (reqEncode vs) s = .next t ∧
      t.resp = { Response.bare 0 with bytesOut := some bytes } ∧
      (responses (encodeProgram vs) s').length = 3 * vs.length + 2 ∧
      (responses (encodeProgram vs) s').getLast? = some { Response.bare 0 with bytesOut := some bytes }

/-! ### Codec: decode -/

/-- CODEC.DECODE of bytes that begin with COUNT whole code words, each with a value of the domain, answers their values
in order, whatever follows them; STATUS is OK, the decode record is Done with them, R is discarded, nothing else
changes (44_codec_decode.md R110, R113, R115, R116). Code words the encoder never makes are among them (30_encoding.md
R69). -/
def Obligations.DecodeAnswersItsCodeWords : Prop :=
  ∀ (s : State) (cws : List (Form × Nat)),
    (∀ p ∈ cws, p.2 < 2 ^ Form.payloadBits p.1 ∧ Form.base p.1 + p.2 ≤ maxValue) →
    cws.length = s.args.count.toNat →
    (cws.flatMap fun p => codeBits p.1 p.2) <+:
      (List.range (8 * s.args.bytesIn.length)).map (Memory.bit s.args.bytesIn) →
    exec .codecDecode s =
      .next { s with
        r := .absent, status := .ok
        d := { state := .done, count := s.args.count
               out := cws.map fun p => BitVec.ofNat 64 (Form.base p.1 + p.2) }
        resp := { Response.bare 0 with
          valuesOut := some (cws.map fun p => BitVec.ofNat 64 (Form.base p.1 + p.2)) } }

/-- CODEC.DECODE that meets, after fewer than COUNT whole code words, the end of the bytes, a code word cut short, or a
raw value above 2^64−1: OverRequestError, TruncatedInputError, RangeError, in that order of tests, and no values
(44_codec_decode.md R111, R112, R114, 60_exceptions.md R129, R131). -/
def Obligations.DecodeFailsAtTheFirstBadCodeWord : Prop :=
  ∀ (s : State) (cws : List (Form × Nat)) (at_ left : Nat),
    (∀ p ∈ cws, p.2 < 2 ^ Form.payloadBits p.1 ∧ Form.base p.1 + p.2 ≤ maxValue) →
    cws.length < s.args.count.toNat →
    (cws.flatMap fun p => codeBits p.1 p.2) <+:
      (List.range (8 * s.args.bytesIn.length)).map (Memory.bit s.args.bytesIn) →
    at_ = (cws.flatMap fun p => codeBits p.1 p.2).length → left = 8 * s.args.bytesIn.length - at_ →
    (left = 0 →
      ∃ t, exec .codecDecode s = .next t ∧ t.status = .fault .overRequest ∧ t.resp = Response.bare 3) ∧
    (left ≠ 0 →
      left < Form.width (classify (BitVec.ofNat 8 (Memory.read s.args.bytesIn at_ (min 8 left)))) →
      ∃ t, exec .codecDecode s = .next t ∧ t.status = .fault .truncatedInput ∧ t.resp = Response.bare 2) ∧
    (∀ d : Nat, 72 ≤ left → d < 2 ^ 64 → 0xFFFFFFFFFFF6EED9 < d →
      Memory.read s.args.bytesIn at_ 72 = 0xFF + d * 2 ^ 8 →
      ∃ t, exec .codecDecode s = .next t ∧ t.status = .fault .range ∧ t.resp = Response.bare 1)

/-- CODEC.DECODE answers exactly COUNT values or an error and no value, one of three kinds (44_codec_decode.md R115,
60_exceptions.md R128, R131); the writer's place is untouched where it succeeds. That an error leaves D.count at COUNT
is the model's reading (log 9). -/
def Obligations.DecodeAnswersCountValuesOrAnError : Prop :=
  ∀ s : State, ∃ t : State, exec .codecDecode s = .next t ∧
    ((t.status = .ok ∧ ∃ vs : List U64, vs.length = s.args.count.toNat ∧
        t = { s with
          r := .absent, status := .ok, d := { state := .done, count := s.args.count, out := vs }
          resp := { Response.bare 0 with valuesOut := some vs } }) ∨
     (∃ e : ErrorKind, (e = .overRequest ∨ e = .truncatedInput ∨ e = .range) ∧
        t.status = .fault e ∧ t.resp = Response.bare (ErrorKind.code e) ∧ t.d.count = s.args.count ∧
        t.op = s.op ∧ t.args = s.args ∧ t.inbox = s.inbox))

/-- 43_codec_encode.md R107 and 44_codec_decode.md R117: the codec calls of no values. -/
def Obligations.CallsOfNoValues : Prop :=
  (∀ s : State, s.args.valuesIn = [] →
    exec .codecEncode s =
      .next { s with
        w := .absent, encIdx := 0, status := .ok, resp := { Response.bare 0 with bytesOut := some [] } }) ∧
  (∀ s : State, s.args.count = 0 →
    exec .codecDecode s =
      .next { s with
        r := .absent, status := .ok, d := { state := .done, count := 0, out := [] }
        resp := { Response.bare 0 with valuesOut := some [] } })

/-- 44_codec_decode.md R116: bytes after the wanted values do not matter, and a smaller count gives the first values. -/
def Obligations.DecodeIgnoresWhatFollows : Prop :=
  ∀ (s s' : State) (b more : List Byte) (c c' : Nat) (t : State) (vs : List U64), c < 2 ^ 64 → c' ≤ c →
    call (reqDecode b c) s = .next t → t.resp.valuesOut = some vs →
    ∃ t', call (reqDecode (b ++ more) c') s' = .next t' ∧
      t'.resp = { Response.bare 0 with valuesOut := some (vs.take c') }

/-- 44_codec_decode.md R118: the round trip, for as many values as COUNT[63:0] can ask for (R31). -/
def Obligations.DecodeOfEncodeIsIdentity : Prop :=
  ∀ (s s' : State) (a : List Int), (∀ v ∈ a, InDomain v) → a.length < 2 ^ 64 →
    ∃ (t t' : State) (bytes : List Byte) (vs : List U64),
      call (reqEncode a) s = .next t ∧ t.resp = { Response.bare 0 with bytesOut := some bytes } ∧
      call (reqDecode bytes a.length) s' = .next t' ∧ t'.status = .ok ∧
      t'.resp = { Response.bare 0 with valuesOut := some vs } ∧ vs.map (fun x => (x.toNat : Int)) = a

/-- 44_codec_decode.md R119: asking for `j` values more than were encoded gives `j` zeros out of the padding, or
OverRequestError, for as many values as COUNT[63:0] can ask for. The zeros rest on the spec's decision that padding is
zero (92_eei_decisions.md D6; log 19). -/
def Obligations.OverRequestReadsThePadding : Prop :=
  ∀ (s s' : State) (a : List Int) (j pad : Nat), (∀ v ∈ a, InDomain v) → 1 ≤ j → a.length + j < 2 ^ 64 →
    pad = (8 - (a.map valueWidth).sum % 8) % 8 →
    ∃ (t t' : State) (bytes : List Byte),
      call (reqEncode a) s = .next t ∧ t.resp = { Response.bare 0 with bytesOut := some bytes } ∧
      call (reqDecode bytes (a.length + j)) s' = .next t' ∧
      (j ≤ pad / 2 → t'.resp = { Response.bare 0 with
        valuesOut := some ((a ++ List.replicate j 0).map (BitVec.ofInt 64)) }) ∧
      (pad / 2 < j → t'.status = .fault .overRequest ∧ t'.resp = Response.bare 3)

/-- The source's truncation test (44_codec_decode.md R112, 95_test_vectors.md S9): the encoding of one value less its
last byte, where it has more than one, fails with TruncatedInputError. -/
def Obligations.TruncatedEncodingFails : Prop :=
  ∀ (s s' : State) (v : Int) (t : State) (bytes : List Byte), InDomain v →
    call (reqEncode [v]) s = .next t → t.resp.bytesOut = some bytes → 1 < bytes.length →
    ∃ t', call (reqDecode bytes.dropLast 1) s' = .next t' ∧ t'.status = .fault .truncatedInput ∧
      t'.resp = Response.bare 2

/-- 70_reset_and_hazards.md R143, 43_codec_encode.md R106: the result of a codec call does not depend on anything
before it, but on its operands alone. -/
def Obligations.CodecCallsForgetThePast : Prop :=
  (∀ (s s' : State) (vs : List Int), ∃ t t' : State,
    call (reqEncode vs) s = .next t ∧ call (reqEncode vs) s' = .next t' ∧ t.resp = t'.resp ∧ t.status = t'.status) ∧
  (∀ (s s' : State) (b : List Byte) (c : Nat), ∃ t t' : State,
    call (reqDecode b c) s = .next t ∧ call (reqDecode b c) s' = .next t' ∧ t.resp = t'.resp ∧ t.status = t'.status)

/-- The value-by-value expansion of CODEC.DECODE (30_encoding.md R74, 44_codec_decode.md R110): where a whole code word
stands next, PEEK 8, CLASSIFY, READBITS P, READBITS D name its form and give its payload, and the reader has moved past
it. -/
def Obligations.PrimitivesReadOneCodeWord : Prop :=
  ∀ (s : State) (c : Reader) (f : Form) (d : Nat), s.status = .ok → s.r = .live c → d < 2 ^ Form.payloadBits f →
    c.n + Form.width f ≤ 8 * c.buf.length →
    (∀ i, i < Form.width f → Memory.bit c.buf (c.n + i) = (encodeCodeWord f d).word.testBit i) →
    ∃ (t1 t2 t3 t4 : State) (x : BitVec 64),
      call (reqPeek 8) s = .next t1 ∧ t1.resp.data = some x ∧
      call (reqClassify (x.setWidth 8)) t1 = .next t2 ∧
      t2.resp.form = some (.classified f (Form.prefixBits f) (Form.payloadBits f) (Form.base f)) ∧
      call (reqReadBits (Form.prefixBits f)) t2 = .next t3 ∧
      call (reqReadBits (Form.payloadBits f)) t3 = .next t4 ∧ t4.resp.data = some (BitVec.ofNat 64 d) ∧
      t4.r = .live { buf := c.buf, n := c.n + Form.width f }

/-- CODEC.DECODE is its passes (44_codec_decode.md R110, R115, 70_reset_and_hazards.md R157): `callStep`, which runs
`exec` of the code word read, taken as often as the passes need, gives the record CODEC.DECODE ends with, or its
error. This is how the statements about code words reach CODEC.DECODE. -/
def Obligations.DecodeIsItsPasses : Prop :=
  ∀ s : State, ∃ (k : Nat) (t : State),
    k ≤ min s.args.count.toNat (4 * s.args.bytesIn.length) + 1 ∧ callSteps k (startDecode s) = .next t ∧
    (t.status = .ok → t.d.state = .done ∧ exec .codecDecode s = .next (finishDecode t)) ∧
    (t.status ≠ .ok → exec .codecDecode s = .next t)

/-- In a decode call, the pass that reads a whole code word is `exec` of it (44_codec_decode.md R110). The conditions also
hold after a failed call and BR.NEW, where this is the model's choice (log 28). -/
def Obligations.PassRunsTheCodeWordRead : Prop :=
  ∀ (s : State) (c : Reader) (f : Form) (d : Nat), s.status = .ok → s.r = .live c → s.d.state = .awaitingValue →
    decodeAt c.buf c.n = .ok (f, d) → callStep s = exec (codeWordInstr f d) s ∧ (codeWordInstr f d).wf = true

/-! ### Code words -/

/-- The seven regularized code words (30_encoding.md R55 to R61) in a decode call; log 28 names the one state without a
call that meets the conditions too. -/
def Obligations.RegularizedCodeWordsAppendTheirValues : Prop :=
  ∀ d : Nat,
    CodeWordDoes (.cwF1 d) 2 0 d ∧ CodeWordDoes (.cwF2 d) 4 2 d ∧ CodeWordDoes (.cwF3 d) 8 6 d ∧
    CodeWordDoes (.cwF4 d) 16 38 d ∧ CodeWordDoes (.cwF5 d) 16 294 d ∧ CodeWordDoes (.cwF6 d) 24 4390 d ∧
    CodeWordDoes (.cwF7 d) 24 69926 d

/-- The six raw code words (30_encoding.md R62) in a decode call, minimal or not (R69); log 28 as above. -/
def Obligations.RawCodeWordsAppendTheirValues : Prop :=
  ∀ d : Nat,
    CodeWordDoes (.cwRawN2 d) 32 594214 d ∧ CodeWordDoes (.cwRawN3 d) 40 594214 d ∧
    CodeWordDoes (.cwRawN4 d) 48 594214 d ∧ CodeWordDoes (.cwRawN5 d) 56 594214 d ∧
    CodeWordDoes (.cwRawN6 d) 64 594214 d ∧ CodeWordDoes (.cwRawN7 d) 72 594214 d

/-- Code words cut short (44_codec_decode.md R111, R112); log 28 as above. -/
def Obligations.CodeWordsCutShortFail : Prop :=
  ∀ d : Nat,
    CodeWordShort (.cwF1 d) 2 ∧ CodeWordShort (.cwF2 d) 4 ∧ CodeWordShort (.cwF3 d) 8 ∧ CodeWordShort (.cwF4 d) 16 ∧
    CodeWordShort (.cwF5 d) 16 ∧ CodeWordShort (.cwF6 d) 24 ∧ CodeWordShort (.cwF7 d) 24 ∧
    CodeWordShort (.cwRawN2 d) 32 ∧ CodeWordShort (.cwRawN3 d) 40 ∧ CodeWordShort (.cwRawN4 d) 48 ∧
    CodeWordShort (.cwRawN5 d) 56 ∧ CodeWordShort (.cwRawN6 d) 64 ∧ CodeWordShort (.cwRawN7 d) 72

/-- 44_codec_decode.md R114: a raw N = 7 code word raises RangeError exactly above payload 0xFFFFFFFFFFF6EED9; no other
well-formed code word does; log 28 as above. -/
def Obligations.RawValueBeyond64BitsIsRangeError : Prop :=
  ∀ (s : State) (c : Reader) (f : Form) (d : Nat), s.status = .ok → s.r = .live c → s.d.state = .awaitingValue →
    c.n + Form.width f ≤ 8 * c.buf.length → d < 2 ^ Form.payloadBits f →
    ((∃ t, exec (codeWordInstr f d) s = .next t ∧ t.status = .fault .range) ↔
      f = .raw .n7 ∧ 0xFFFFFFFFFFF6EED9 < d) ∧
    (f = .raw .n7 → 0xFFFFFFFFFFF6EED9 < d → exec (codeWordInstr f d) s = .next (raise .range s))

/-- A code word where no value is awaited is data nobody reads: nothing changes. The model's reading of
44_codec_decode.md R109 and R116 (log 13). -/
def Obligations.CodeWordsOutsideACallDoNothing : Prop :=
  ∀ (s : State) (f : Form) (d : Nat),
    (s.status ≠ .ok ∨ Slot.isLive s.r = false ∨ s.d.state = .done) → exec (codeWordInstr f d) s = .next s

/-! ### Errors -/

/-- 30_encoding.md R72: reserved codes raise IllegalOperation; the contents of the cursors stay. -/
def Obligations.ReservedCodesRaise : Prop :=
  [0xA, 0xB, 0xC, 0xD, 0xE, 0xF].map decodeCommand =
    [.reservedA, .reservedB, .reservedC, .reservedD, .reservedE, .reservedF] ∧
  ∀ s : State,
    (∀ i ∈ [Instr.reservedA, .reservedB, .reservedC, .reservedD, .reservedE, .reservedF],
      exec i s = .next (raise .illegalOperation s)) ∧
    (raise .illegalOperation s).status = .fault .illegalOperation ∧
    (∀ c, s.w = .live c ∨ s.w = .dead c → (raise .illegalOperation s).w = .dead c) ∧
    (∀ c, s.r = .live c ∨ s.r = .dead c → (raise .illegalOperation s).r = .dead c)

/-- Taking an error (60_exceptions.md R130): STATUS, the response, and what it leaves alone; no cursor may be used
afterwards (log 6), a place with no cursor stays so, and D.state and D.count stay (log 9). The codes are those of R127;
code 7 stands for nothing. -/
def Obligations.RaiseTakesTheError : Prop :=
  (∀ (e : ErrorKind) (s : State),
    (raise e s).status = .fault e ∧ (raise e s).resp = Response.bare (ErrorKind.code e) ∧
    Slot.isLive (raise e s).w = false ∧ Slot.isLive (raise e s).r = false ∧
    ((raise e s).w = .absent ↔ s.w = .absent) ∧ ((raise e s).r = .absent ↔ s.r = .absent) ∧
    (raise e s).d.state = s.d.state ∧ (raise e s).d.count = s.d.count ∧
    (raise e s).op = s.op ∧ (raise e s).args = s.args ∧ (raise e s).inbox = s.inbox) ∧
  ([Status.ok, .fault .range, .fault .truncatedInput, .fault .overRequest, .fault .malformedPrefix,
      .fault .endOfStream, .fault .illegalOperation].map Status.code) = [0, 1, 2, 3, 4, 5, 6] ∧
  (∀ st : Status, Status.ofCode (Status.code st) = some st) ∧ Status.ofCode 7 = none

/-- In a fault state, and without the cursor they need, BW.EMIT, BW.FINALIZE, BR.PEEK and BR.READBITS are rejected,
whatever their operands: the response carries IllegalOperation and nothing else changes, STATUS included
(60_exceptions.md R129, R134). Where STATUS is OK and the cursor is dead, because the fault was cleared by creating the
other kind, the rejection is the model's reading (log 6). -/
def Obligations.UnusableCursorIsRejected : Prop :=
  ∀ s : State,
    (s.status ≠ .ok ∨ Slot.isLive s.w = false →
      exec .bwEmit s = .next { s with resp := Response.bare 6 } ∧
      exec .bwFinalize s = .next { s with resp := Response.bare 6 }) ∧
    (s.status ≠ .ok ∨ Slot.isLive s.r = false →
      exec .brPeek s = .next { s with resp := Response.bare 6 } ∧
      exec .brReadBits s = .next { s with resp := Response.bare 6 })

/-- STATUS returns to OK only by BW.NEW, BR.NEW, CODEC.ENCODE or CODEC.DECODE (60_exceptions.md R134). -/
def Obligations.OnlyCursorCreationLeavesAFault : Prop :=
  ∀ (i : Instr) (s t : State), exec i s = .next t → s.status ≠ .ok → t.status = .ok →
    i = .bwNew ∨ i = .brNew ∨ i = .codecEncode ∨ i = .codecDecode

/-- What a fault leaves unspecified is never read (60_exceptions.md R130): the responses to any requests depend on
STATUS and the usable cursors alone. -/
def Obligations.ResponsesIgnoreUnspecifiedContents : Prop :=
  ∀ (qs : List Request) (s t : State), SameUsable s t → responses qs s = responses qs t

/-! ### The machine -/

/-- A step takes the first request, loads its code and operands and is `exec` of the decoded operation (20_memory.md
R44, 30_encoding.md R71); with no request the block stays as it is. How requests reach the block is the model's (log
1). -/
def Obligations.StepRunsTheRequest : Prop :=
  (∀ (s : State) (q : Request) (rest : List Request) (i : Instr), s.inbox = q :: rest →
    decode .command { nbits := 4, word := q.op.toNat } = .ok i →
    i.wf = true ∧ step s = exec i { s with op := q.op, args := q.args, inbox := rest }) ∧
  (∀ s : State, s.inbox = [] → step s = .next s)

/-- Every instruction runs to its response: the block neither stops nor waits (60_exceptions.md R136,
70_reset_and_hazards.md R156). -/
def Obligations.EveryInstructionGoesOn : Prop := ∀ (i : Instr) (s : State), ∃ t, exec i s = .next t

/-- Every step keeps the canonical form of the live cursors (10_state.md R24, R25), keeps cursors unusable in a fault
state (60_exceptions.md R130), and never shows MalformedPrefixError or code 7 (R124, R127). -/
def Obligations.StepKeepsGood : Prop := ∀ s t : State, s.Good → step s = .next t → t.Good

/-- The state after power-on reset is good. -/
def Obligations.ResetIsGood : Prop := State.reset.Good

/-- The state after power-on reset (10_state.md R34, 70_reset_and_hazards.md R142): what the spec gives; and BW.NEW then
BR.NEW of no bytes leave the same cursors, records and STATUS. The operand registers' values are the model's (log 2). -/
def Obligations.ResetValues : Prop :=
  State.reset.w = .live { buf := [], pos := 0 } ∧ State.reset.r = .live { buf := [], n := 0 } ∧
  State.reset.d = { state := .done, count := 0, out := [] } ∧ State.reset.encIdx = 0 ∧ State.reset.status = .ok ∧
  State.reset.resp.data = none ∧ State.reset.resp.avail = none ∧ State.reset.resp.form = none ∧
  State.reset.resp.bytesOut = none ∧ State.reset.resp.valuesOut = none ∧
  ∃ t t' : State, call reqBwNew State.reset = .next t ∧ call (reqBrNew []) t = .next t' ∧
    t'.w = State.reset.w ∧ t'.r = State.reset.r ∧ t'.d = State.reset.d ∧ t'.encIdx = State.reset.encIdx ∧
    t'.status = State.reset.status

/-- 00_scope.md R11 and R12: the zigzag mapping, outside the block (log 24). -/
def Obligations.ZigzagInverse : Prop :=
  (∀ n : Int, (0 ≤ n → (toUnsigned n : Int) = n * 2) ∧ (n < 0 → (toUnsigned n : Int) = (-n - 1) * 2 + 1)) ∧
  (∀ n : Int, -9223372036854775808 ≤ n → n ≤ 9223372036854775807 → toUnsigned n ≤ maxValue) ∧
  toUnsigned 9223372036854775807 = 18446744073709551614 ∧
  toUnsigned (-9223372036854775808) = 18446744073709551615 ∧
  (∀ u : Nat, (u % 2 = 0 → fromUnsigned u = (u / 2 : Nat)) ∧ (u % 2 = 1 → fromUnsigned u = -(u / 2 : Nat) - 1)) ∧
  (∀ n : Int, fromUnsigned (toUnsigned n) = n) ∧ ∀ u : Nat, toUnsigned (fromUnsigned u) = u
end

