-- ==== Sys2Proof/Laws/Bits.lean ====
section
/-! SUPPORT. Laws of bits, byte buffers and the two cursors: what reading, writing one bit and EMIT do, and
that EMIT keeps the canonical form (10_state.md R24). -/

namespace Sys2Proof.Machine

open Sys2Proof

theorem byteWithBit_getLsbD (y : Byte) (i j : Nat) (x : Bool) (hj : j < 8) :
    (byteWithBit y i x).getLsbD j = if j = i then x else y.getLsbD j := by
  have hp : (BitVec.ofNat 8 (2 ^ i)).getLsbD j = decide (j = i) := by
    rw [BitVec.getLsbD_ofNat, Nat.testBit_two_pow]; simp [hj, eq_comm]
  unfold byteWithBit
  generalize BitVec.ofNat 8 (2 ^ i) = t at hp ⊢
  have hn : (~~~t).getLsbD j = !decide (j = i) := by rw [BitVec.getLsbD_not, hp]; simp [hj]
  cases x
  · simp only [Bool.false_eq_true, if_false, BitVec.getLsbD_and, hn]
    by_cases h : j = i <;> simp [h]
  · simp only [if_true, BitVec.getLsbD_or, hp]
    by_cases h : j = i <;> simp [h]

theorem byteWithBit_lt (y : Byte) (i : Nat) (x : Bool) (hi : i < 8) (h : y.toNat < 2 ^ i) :
    (byteWithBit y i x).toNat < 2 ^ (i + 1) := by
  have hl : 2 ^ i < 2 ^ (i + 1) := Nat.pow_lt_pow_right (by decide) (by omega)
  unfold byteWithBit
  cases x
  · simp only [Bool.false_eq_true, if_false, BitVec.toNat_and]
    exact lt_of_le_of_lt Nat.and_le_left (by omega)
  · have h8 : 2 ^ i < 2 ^ 8 := Nat.pow_lt_pow_right (by decide) hi
    simp only [if_true, BitVec.toNat_or, BitVec.toNat_ofNat, Nat.mod_eq_of_lt h8]
    exact Nat.or_lt_two_pow (by omega) hl

@[simp] theorem Memory.setBit_length (b : Memory) (a : Nat) (x : Bool) :
    (Memory.setBit b a x).length = b.length := by
  unfold Memory.setBit; split <;> simp

theorem Memory.bit_setBit (b : Memory) (a c : Nat) (x : Bool) (h : a < 8 * b.length) :
    Memory.bit (Memory.setBit b a x) c = if c = a then x else Memory.bit b c := by
  have ha : a / 8 < b.length := by omega
  unfold Memory.setBit Memory.bit
  rw [List.getElem?_eq_getElem ha]
  by_cases hc : c / 8 = a / 8
  · have hm : c = a ↔ c % 8 = a % 8 := by omega
    simp [hc, ha, byteWithBit_getLsbD _ _ _ _ (Nat.mod_lt c (by decide : 0 < 8)), hm]
  · have hm : c ≠ a := by rintro rfl; exact hc rfl
    simp [List.getElem?_set_ne (Ne.symm hc), hm]

theorem Memory.bit_append_left (b : Memory) (y : Byte) (c : Nat) (h : c < 8 * b.length) :
    Memory.bit (Memory.append b y) c = Memory.bit b c := by
  unfold Memory.bit Memory.append
  rw [List.getElem?_append_left (by omega)]

theorem Memory.read_lt (b : Memory) (a n : Nat) : Memory.read b a n < 2 ^ n := by
  induction n generalizing a with
  | zero => simp [Memory.read]
  | succ n ih =>
    have := ih (a + 1)
    have hb := Bool.toNat_lt (Memory.bit b a)
    simp only [Memory.read, pow_succ]; omega

theorem Memory.read_add (b : Memory) (a m n : Nat) :
    Memory.read b a (m + n) = Memory.read b a m + 2 ^ m * Memory.read b (a + m) n := by
  induction m generalizing a with
  | zero => simp [Memory.read]
  | succ m ih =>
    have e : m + 1 + n = (m + n) + 1 := by omega
    rw [e, Memory.read, ih, Memory.read, pow_succ]
    have : a + 1 + m = a + (m + 1) := by omega
    rw [this]; ring

theorem Memory.read_congr (b c : Memory) (a a' n : Nat) (h : ∀ i < n, Memory.bit b (a + i) = Memory.bit c (a' + i)) :
    Memory.read b a n = Memory.read c a' n := by
  induction n generalizing a a' with
  | zero => rfl
  | succ n ih =>
    have h0 := h 0 (by omega)
    have := ih (a + 1) (a' + 1) (fun i hi => by
      have := h (i + 1) (by omega)
      rwa [show a + (i + 1) = a + 1 + i by omega, show a' + (i + 1) = a' + 1 + i by omega] at this)
    simp only [Memory.read, this]
    simp at h0; rw [h0]

theorem fieldBits_length (v n : Nat) : (fieldBits v n).length = n := by
  induction n generalizing v with
  | zero => rfl
  | succ n ih => simp [fieldBits, ih]

theorem fieldBits_eq_map (v n : Nat) : fieldBits v n = (List.range n).map v.testBit := by
  induction n generalizing v with
  | zero => rfl
  | succ n ih =>
    rw [fieldBits, ih, List.range_succ_eq_map]
    simp [Nat.testBit_zero, Function.comp_def, Nat.testBit_succ, beq_eq_decide]

theorem fieldBits_add (v m n : Nat) : fieldBits v (m + n) = fieldBits v m ++ fieldBits (v / 2 ^ m) n := by
  induction m generalizing v with
  | zero => simp [fieldBits]
  | succ m ih =>
    rw [show m + 1 + n = (m + n) + 1 by omega, fieldBits, ih, fieldBits, pow_succ, Nat.div_div_eq_div_mul, Nat.mul_comm 2]
    rfl

/-- A canonical writer's facts in arithmetic form. -/
theorem Writer.wf_nil {w : Writer} (h : Writer.wf w = true) (hb : w.buf = []) : w.pos = 0 := by
  simpa [Writer.wf, hb] using h

theorem Writer.wf_cons {w : Writer} (h : Writer.wf w = true) (hb : w.buf ≠ []) :
    1 ≤ w.pos ∧ w.pos ≤ 8 ∧ (w.buf.getLast hb).toNat < 2 ^ w.pos := by
  rw [Writer.wf, List.getLast?_eq_getLast_of_ne_nil hb] at h
  simpa [and_assoc] using h

theorem Writer.nbits_le {w : Writer} (h : Writer.wf w = true) : Writer.nbits w ≤ 8 * w.buf.length := by
  unfold Writer.nbits
  split
  · omega
  · rename_i hb
    have := Writer.wf_cons h hb
    have : 0 < w.buf.length := List.length_pos_iff.2 hb
    omega

theorem Memory.bit_lt_of_wf {w : Writer} (h : Writer.wf w = true) {a : Nat} (ha : Writer.nbits w ≤ a) :
    Memory.bit w.buf a = false := by
  unfold Memory.bit
  cases hb : w.buf[a / 8]? with
  | none => rfl
  | some y =>
    have hlt : a / 8 < w.buf.length := by
      rw [List.getElem?_eq_some_iff] at hb; exact hb.1
    have hne : w.buf ≠ [] := by rintro e; simp [e] at hlt
    obtain ⟨h1, h8, hl⟩ := Writer.wf_cons h hne
    rw [Writer.nbits, if_neg hne] at ha
    have hi : a / 8 = w.buf.length - 1 := by omega
    have hy : y = w.buf.getLast hne := by
      rw [hi, List.getElem?_eq_getElem (by omega)] at hb
      rw [List.getLast_eq_getElem]; exact (Option.some.inj hb).symm
    subst hy
    show (w.buf.getLast hne).getLsbD (a % 8) = false
    rw [← BitVec.testBit_toNat]
    exact Nat.testBit_lt_two_pow (lt_of_lt_of_le hl (Nat.pow_le_pow_right (by decide) (by omega)))

/-- One pushed bit: one more bit at the end of the stream, the canonical form kept (R24, R76). -/
theorem Writer.pushBit_spec {w : Writer} (h : Writer.wf w = true) (x : Bool) :
    Writer.wf (Writer.pushBit w x) = true ∧ Writer.nbits (Writer.pushBit w x) = Writer.nbits w + 1 ∧
      ∀ a, Memory.bit (Writer.pushBit w x).buf a =
        if a = Writer.nbits w then x else Memory.bit w.buf a := by
  by_cases hg : w.buf = [] ∨ w.pos = 8
  · have hn : Writer.nbits w = 8 * w.buf.length := by
      unfold Writer.nbits
      rcases hg with hb | hp
      · simp [hb]
      · by_cases hb : w.buf = []
        · simp [hb]
        · have : 0 < w.buf.length := List.length_pos_iff.2 hb
          rw [if_neg hb]; omega
    have hlen : (Memory.append w.buf 0).length = w.buf.length + 1 := by simp [Memory.append]
    have e : Memory.setBit (Memory.append w.buf 0) (8 * w.buf.length) x = w.buf ++ [byteWithBit 0 0 x] := by
      simp [Memory.setBit, Memory.append]
    rw [Writer.pushBit, if_pos hg]
    refine ⟨?_, ?_, fun a => ?_⟩
    · rw [e]
      cases x <;> simp [Writer.wf, byteWithBit]
    · simp only [Writer.nbits, e]
      simp [← hn, Writer.nbits]
    · show Memory.bit (Memory.setBit (Memory.append w.buf 0) (8 * w.buf.length) x) a = _
      rw [Memory.bit_setBit _ _ _ _ (by rw [hlen]; omega), hn]
      by_cases ha : a = 8 * w.buf.length
      · simp [ha]
      · rw [if_neg ha, if_neg ha]
        by_cases hlt : a < 8 * w.buf.length
        · exact Memory.bit_append_left _ _ _ hlt
        · rw [Memory.bit_lt_of_wf h (by omega)]
          unfold Memory.bit Memory.append
          by_cases hq : a / 8 = w.buf.length
          · simp [hq]
          · rw [List.getElem?_eq_none (by simp; omega)]
  · push Not at hg
    obtain ⟨hb, hp⟩ := hg
    obtain ⟨h1, h8, hl⟩ := Writer.wf_cons h hb
    have hpos : 0 < w.buf.length := List.length_pos_iff.2 hb
    have hn : Writer.nbits w = 8 * (w.buf.length - 1) + w.pos := by rw [Writer.nbits, if_neg hb]
    rw [Writer.pushBit, if_neg (by simp [hb, hp])]
    have hne : Memory.setBit w.buf (8 * (w.buf.length - 1) + w.pos) x ≠ [] := by
      rw [← List.length_pos_iff]; simpa using hpos
    refine ⟨?_, ?_, fun a => ?_⟩
    · have hdiv : (8 * (w.buf.length - 1) + w.pos) / 8 = w.buf.length - 1 := by omega
      have hmod : (8 * (w.buf.length - 1) + w.pos) % 8 = w.pos := by omega
      have e : Memory.setBit w.buf (8 * (w.buf.length - 1) + w.pos) x =
          w.buf.set (w.buf.length - 1) (byteWithBit (w.buf.getLast hb) w.pos x) := by
        rw [Memory.setBit, hdiv, hmod, List.getElem?_eq_getElem (by omega), List.getLast_eq_getElem]
      have hlast : (Memory.setBit w.buf (8 * (w.buf.length - 1) + w.pos) x).getLast? =
          some (byteWithBit (w.buf.getLast hb) w.pos x) := by
        rw [e, List.getLast?_eq_getElem?]
        simp [hpos]
      rw [Writer.wf]
      simp only [hlast]
      have := byteWithBit_lt (w.buf.getLast hb) w.pos x (by omega) hl
      simp only [Bool.and_eq_true, decide_eq_true_eq]
      omega
    · simp only [Writer.nbits, if_neg hne, if_neg hb, Memory.setBit_length]; omega
    · show Memory.bit (Memory.setBit w.buf (8 * (w.buf.length - 1) + w.pos) x) a = _
      rw [Memory.bit_setBit _ _ _ _ (by omega), hn]

/-- EMIT: `n` more bits at the end of the stream, the low bits of the value, and the canonical form kept (R76). -/
theorem Writer.emit_spec {w : Writer} (h : Writer.wf w = true) (v n : Nat) :
    Writer.wf (Writer.emit w v n) = true ∧ Writer.nbits (Writer.emit w v n) = Writer.nbits w + n ∧
      ∀ a, Memory.bit (Writer.emit w v n).buf a =
        if a < Writer.nbits w then Memory.bit w.buf a else decide (a < Writer.nbits w + n) && v.testBit (a - Writer.nbits w) := by
  induction n generalizing w v with
  | zero =>
    refine ⟨h, rfl, fun a => ?_⟩
    by_cases ha : a < Writer.nbits w
    · simp [Writer.emit, ha]
    · simp [Writer.emit, ha, Memory.bit_lt_of_wf h (by omega : Writer.nbits w ≤ a)]
  | succ n ih =>
    obtain ⟨p1, p2, p3⟩ := Writer.pushBit_spec h (v % 2 == 1)
    obtain ⟨q1, q2, q3⟩ := ih p1 (v / 2)
    refine ⟨q1, by rw [Writer.emit, q2, p2]; omega, fun a => ?_⟩
    rw [Writer.emit, q3 a, p2, p3 a]
    by_cases h1 : a < Writer.nbits w
    · rw [if_pos (by omega), if_pos h1, if_neg (by omega)]
    · by_cases h2 : a = Writer.nbits w
      · subst h2; simp [Nat.testBit_zero, beq_eq_decide]
      · rw [if_neg (by omega), if_neg h1]
        obtain ⟨k, hk⟩ : ∃ k, a - Writer.nbits w = k + 1 := ⟨a - Writer.nbits w - 1, by omega⟩
        rw [hk, Nat.testBit_succ, show a - (Writer.nbits w + 1) = k by omega,
          show Writer.nbits w + 1 + n = Writer.nbits w + (n + 1) by omega]

theorem Writer.emit_wf {w : Writer} (h : Writer.wf w = true) (v n : Nat) : Writer.wf (Writer.emit w v n) = true :=
  (Writer.emit_spec h v n).1

theorem Writer.emit_bits {w : Writer} (h : Writer.wf w = true) (v n : Nat) :
    Writer.bits (Writer.emit w v n) = Writer.bits w ++ fieldBits v n := by
  obtain ⟨-, hn, hb⟩ := Writer.emit_spec h v n
  rw [fieldBits_eq_map, Writer.bits, Writer.bits, hn, List.range_add, List.map_append, List.map_map]
  congr 1
  · exact List.map_congr_left fun a ha => by rw [hb a, if_pos (List.mem_range.1 ha)]
  · refine List.map_congr_left fun a ha => ?_
    have := List.mem_range.1 ha
    simp [hb, this]

/-- The bytes of a canonical writer are as many as its bits need (R24). -/
theorem Writer.length_of_wf {w : Writer} (h : Writer.wf w = true) : w.buf.length = ceilDiv (Writer.nbits w) 8 := by
  unfold Writer.nbits ceilDiv
  by_cases hb : w.buf = []
  · simp [hb]
  · have := Writer.wf_cons h hb
    have : 0 < w.buf.length := List.length_pos_iff.2 hb
    rw [if_neg hb]; omega

/-- Equal bit streams, equal cursors (R24): the canonical form is canonical. -/
theorem Writer.ext_of_bits {w v : Writer} (hw : Writer.wf w = true) (hv : Writer.wf v = true)
    (h : Writer.bits w = Writer.bits v) : w = v := by
  have hn : Writer.nbits w = Writer.nbits v := by simpa [Writer.bits] using congrArg List.length h
  have hbit : ∀ a, Memory.bit w.buf a = Memory.bit v.buf a := by
    intro a
    by_cases ha : a < Writer.nbits w
    · have := congrArg (fun l => l[a]?) h
      simpa [Writer.bits, ha, hn ▸ ha] using this
    · rw [Memory.bit_lt_of_wf hw (by omega), Memory.bit_lt_of_wf hv (by omega)]
  have hlen : w.buf.length = v.buf.length := by
    rw [Writer.length_of_wf hw, Writer.length_of_wf hv, hn]
  have hbuf : w.buf = v.buf := by
    refine List.ext_getElem hlen fun i h1 h2 => ?_
    refine BitVec.eq_of_getLsbD_eq fun j hj => ?_
    have := hbit (8 * i + j)
    have e1 : (8 * i + j) / 8 = i := by omega
    have e2 : (8 * i + j) % 8 = j := by omega
    simpa [Memory.bit, e1, e2, h1, h2] using this
  have hpos : w.pos = v.pos := by
    by_cases hb : w.buf = []
    · rw [Writer.wf_nil hw hb, Writer.wf_nil hv (hbuf ▸ hb)]
    · have hb' : v.buf ≠ [] := hbuf ▸ hb
      rw [Writer.nbits, Writer.nbits, if_neg hb, if_neg hb', hbuf] at hn
      omega
  cases w; cases v; simp_all

theorem fieldBits_mod (v n k : Nat) (h : n ≤ k) : fieldBits (v % 2 ^ k) n = fieldBits v n := by
  rw [fieldBits_eq_map, fieldBits_eq_map]
  refine List.map_congr_left fun i hi => ?_
  have := List.mem_range.1 hi
  simp [Nat.testBit_mod_two_pow]; omega

theorem Memory.testBit_read (b : Memory) (a n i : Nat) :
    (Memory.read b a n).testBit i = (decide (i < n) && Memory.bit b (a + i)) := by
  induction n generalizing a i with
  | zero => simp [Memory.read]
  | succ n ih =>
    cases i with
    | zero =>
      simp only [Memory.read, Nat.testBit_zero, Nat.add_zero]
      cases Memory.bit b a <;> simp [Nat.add_mod]
    | succ i =>
      have e : (Memory.read b a (n + 1)) / 2 = Memory.read b (a + 1) n := by
        simp only [Memory.read]
        have := Bool.toNat_lt (Memory.bit b a); omega
      rw [Nat.testBit_succ, e, ih, show a + 1 + i = a + (i + 1) by omega]
      simp

/-- EMIT in two parts (R77). -/
theorem Writer.emit_add (w : Writer) (v m n : Nat) :
    Writer.emit w v (m + n) = Writer.emit (Writer.emit w v m) (v / 2 ^ m) n := by
  induction m generalizing w v with
  | zero => simp [Writer.emit]
  | succ m ih =>
    rw [show m + 1 + n = (m + n) + 1 by omega, Writer.emit, ih, Writer.emit, pow_succ, Nat.div_div_eq_div_mul,
      Nat.mul_comm 2]

/-- EMIT reads only the low bits (R76). -/
theorem Writer.emit_mod (w : Writer) (v n k : Nat) (h : n ≤ k) : Writer.emit w (v % 2 ^ k) n = Writer.emit w v n := by
  induction n generalizing w v k with
  | zero => rfl
  | succ n ih =>
    obtain ⟨k, rfl⟩ : ∃ j, k = j + 1 := ⟨k - 1, by omega⟩
    have h1 : v % 2 ^ (k + 1) % 2 = v % 2 := Nat.mod_mod_of_dvd _ (by rw [pow_succ]; exact Nat.dvd_mul_left _ _)
    have h2 : v % 2 ^ (k + 1) / 2 = v / 2 % 2 ^ k := by rw [pow_succ, Nat.mul_comm, Nat.mod_mul_right_div_self]
    rw [Writer.emit, h1, h2, ih _ _ _ (by omega), Writer.emit]

/-- The bits of what a reader looks at (R40). -/
theorem Reader.look_getLsbD (c : Reader) (n i : Nat) (hn : n ≤ 64) :
    (BitVec.ofNat 64 (Reader.look c n)).getLsbD i = (decide (i < n) && Memory.bit c.buf (c.n + i)) := by
  rw [BitVec.getLsbD_ofNat, Reader.look, Memory.testBit_read]
  by_cases h : i < n
  · have : i < 64 := by omega
    simp [h, this]
  · simp [h]

end Sys2Proof.Machine
end

