-- ==== Sys2Proof/Laws/Forms.lean ====
section
/-! SUPPORT. Laws of the forms, of selection and classification, and of reading one code word. -/

namespace Sys2Proof.Machine

open Sys2Proof

@[simp] theorem maxRegularized_eq : maxRegularized = 594213 := rfl
@[simp] theorem rawOffset_eq : rawOffset = 594214 := rfl

theorem allForms_complete (f : Form) : f ∈ allForms := by
  cases f with
  | reg k => cases k <;> decide
  | raw n => cases n <;> decide

theorem Form.forall_iff (P : Form → Prop) : (∀ f, P f) ↔ ∀ f ∈ allForms, P f :=
  ⟨fun h f _ => h f, fun h f => h f (allForms_complete f)⟩

theorem Form.prefixBits_bounds (f : Form) : 1 ≤ Form.prefixBits f ∧ Form.prefixBits f ≤ 8 := by
  cases f with
  | reg k => cases k <;> decide
  | raw n => cases n <;> decide

theorem Form.prefixValue_lt (f : Form) : Form.prefixValue f < 2 ^ Form.prefixBits f := by
  cases f with
  | reg k => cases k <;> decide
  | raw n => cases n <;> decide

theorem Form.payloadBits_bounds (f : Form) : 1 ≤ Form.payloadBits f ∧ Form.payloadBits f ≤ 64 := by
  cases f with
  | reg k => cases k <;> decide
  | raw n => cases n <;> decide

theorem Form.width_bounds (f : Form) : 2 ≤ Form.width f ∧ Form.width f ≤ 72 ∧ Form.width f % 2 = 0 := by
  cases f with
  | reg k => cases k <;> decide
  | raw n => cases n <;> decide

theorem Form.base_le (f : Form) : Form.base f ≤ 594214 := by
  cases f with
  | reg k => cases k <;> decide
  | raw n => cases n <;> decide

theorem classify_low (p : BitVec 8) : p.toNat % 2 ^ Form.prefixBits (classify p) = Form.prefixValue (classify p) := by
  revert p; decide

theorem classify_of_low (p : BitVec 8) (f : Form) (h : p.toNat % 2 ^ Form.prefixBits f = Form.prefixValue f) :
    classify p = f := by
  have key : ∀ p : BitVec 8, ∀ f ∈ allForms, p.toNat % 2 ^ Form.prefixBits f = Form.prefixValue f → classify p = f := by
    decide
  exact key p f (allForms_complete f) h

/-- A code word at the front of the bits is read back, whatever follows it (R53, R64, R67). -/
theorem decodeCodeWord_of_code {avail bits : Nat} (f : Form) (d : Nat) (hw : Form.width f ≤ avail)
    (hb : bits % 2 ^ Form.width f = Form.prefixValue f + d * 2 ^ Form.prefixBits f) :
    decodeCodeWord avail bits = .ok (f, d) := by
  have hbd := Form.width_bounds f
  have hp := Form.prefixBits_bounds f
  have hpv := Form.prefixValue_lt f
  have hdv : 2 ^ Form.prefixBits f ∣ 2 ^ Form.width f := pow_dvd_pow 2 (by unfold Form.width; omega)
  have hpre : bits % 2 ^ Form.prefixBits f = Form.prefixValue f := by
    rw [← Nat.mod_mod_of_dvd bits hdv, hb, Nat.add_mul_mod_self_right, Nat.mod_eq_of_lt hpv]
  have hwin : classify (BitVec.ofNat 8 (low bits (min 8 avail))) = f := by
    apply classify_of_low
    have hle : Form.prefixBits f ≤ min 8 avail := by unfold Form.width at hw; omega
    rw [BitVec.toNat_ofNat, Nat.mod_mod_of_dvd _ (pow_dvd_pow 2 hp.2), low,
      Nat.mod_mod_of_dvd _ (pow_dvd_pow 2 hle), hpre]
  have hpay : low (bits / 2 ^ Form.prefixBits f) (Form.payloadBits f) = d := by
    have hsplit : 2 ^ Form.width f = 2 ^ Form.prefixBits f * 2 ^ Form.payloadBits f := by
      rw [← pow_add]; rfl
    rw [low, ← Nat.mod_mul_right_div_self, ← hsplit, hb, Nat.add_mul_div_right _ _ (Nat.two_pow_pos _),
      Nat.div_eq_of_lt hpv, Nat.zero_add]
  unfold decodeCodeWord
  rw [if_neg (by omega)]
  simp only [hwin, hpay]
  rw [if_neg (by omega)]

/-- What the decoder reads is what stands there (R66, R67). -/
theorem code_of_decodeCodeWord {avail bits : Nat} {f : Form} {d : Nat}
    (h : decodeCodeWord avail bits = .ok (f, d)) :
    d < 2 ^ Form.payloadBits f ∧ Form.width f ≤ avail ∧
      bits % 2 ^ Form.width f = Form.prefixValue f + d * 2 ^ Form.prefixBits f := by
  unfold decodeCodeWord at h
  split at h
  · cases h
  · simp only at h
    generalize hc : classify (BitVec.ofNat 8 (low bits (min 8 avail))) = g at h
    split at h
    · cases h
    · rename_i h0 hw
      obtain ⟨rfl, rfl⟩ : g = f ∧ low (bits / 2 ^ Form.prefixBits g) (Form.payloadBits g) = d := by
        simpa using h
      have hp := Form.prefixBits_bounds g
      have hwd : Form.prefixBits g ≤ Form.width g := by unfold Form.width; omega
      have hlow := classify_low (BitVec.ofNat 8 (low bits (min 8 avail)))
      rw [hc, BitVec.toNat_ofNat, Nat.mod_mod_of_dvd _ (pow_dvd_pow 2 hp.2), low,
        Nat.mod_mod_of_dvd _ (pow_dvd_pow 2 (by omega))] at hlow
      refine ⟨Nat.mod_lt _ (Nat.two_pow_pos _), by omega, ?_⟩
      have hsplit : 2 ^ Form.width g = 2 ^ Form.prefixBits g * 2 ^ Form.payloadBits g := by
        rw [← pow_add]; rfl
      rw [hsplit, Nat.mod_mul, hlow, low, Nat.mul_comm]

theorem decodeCodeWord_noBits (bits : Nat) : decodeCodeWord 0 bits = .error .noBits := rfl

/-- `bitLength` is the least width that holds the number (R13). -/
theorem bitLength_le_iff (x b : Nat) : bitLength x ≤ b ↔ x < 2 ^ b := by
  unfold bitLength
  split
  · rename_i h; simp [h]
  · rename_i h
    rw [Nat.add_one_le_iff, Nat.log2_lt h]

theorem lt_two_pow_bitLength (x : Nat) : x < 2 ^ bitLength x := (bitLength_le_iff x _).1 le_rfl

/-- The raw form of an adjusted value that fits 8 bytes (R93). -/
theorem rawOfAdj_ok {a : Nat} (h8 : max 3 (ceilDiv (bitLength a) 8) ≤ 8) (hfit : a < 2 ^ (8 * max 3 (ceilDiv (bitLength a) 8))) :
    ∃ n, rawOfAdj a = .ok { form := .raw n, adj := a, width := Form.width (.raw n) } ∧
      RawSize.number n + 1 = max 3 (ceilDiv (bitLength a) 8) ∧
      a < 2 ^ Form.payloadBits (.raw n) := by
  have h3 : 3 ≤ max 3 (ceilDiv (bitLength a) 8) := le_max_left _ _
  unfold rawOfAdj
  generalize max 3 (ceilDiv (bitLength a) 8) = b at h3 h8 hfit ⊢
  interval_cases b
  · exact ⟨.n2, rfl, rfl, hfit⟩
  · exact ⟨.n3, rfl, rfl, hfit⟩
  · exact ⟨.n4, rfl, rfl, hfit⟩
  · exact ⟨.n5, rfl, rfl, hfit⟩
  · exact ⟨.n6, rfl, rfl, hfit⟩
  · exact ⟨.n7, rfl, rfl, hfit⟩
/-- The byte count of the raw form is in range for every value of the domain (R94). -/
theorem rawBytes_le {a : Nat} (h : a ≤ maxValue) : max 3 (ceilDiv (bitLength a) 8) ≤ 8 := by
  have hm : maxValue < 2 ^ 64 := by norm_num [maxValue]
  have : bitLength a ≤ 64 := (bitLength_le_iff _ _).2 (lt_of_le_of_lt h hm)
  unfold ceilDiv; omega

/-- The bytes of the raw form hold the adjusted value (R21). -/
theorem lt_rawBytes (a : Nat) : a < 2 ^ (8 * max 3 (ceilDiv (bitLength a) 8)) := by
  rw [← bitLength_le_iff]; unfold ceilDiv; omega

/-- `raw_select` of a value of the domain (R93, R94). -/
theorem rawSelect_ok {v : Nat} (h : v ≤ maxValue) :
    ∃ n, rawSelect v = .ok { form := .raw n, adj := v - rawOffset, width := Form.width (.raw n) } ∧
      RawSize.number n + 1 = max 3 (ceilDiv (bitLength (v - rawOffset)) 8) ∧
      v - rawOffset < 2 ^ Form.payloadBits (.raw n) :=
  rawOfAdj_ok (rawBytes_le (le_trans (Nat.sub_le _ _) h)) (lt_rawBytes _)

/-- All that `selectForm` can do (R92, R93): outside the domain RangeError; inside, a form, the value less its base, a
payload that fits, and the form's width. -/
theorem selectForm_cases (v : Int) :
    ((v < 0 ∨ (maxValue : Int) < v) ∧ selectForm v = .error .range) ∨
    ((0 ≤ v ∧ v ≤ (maxValue : Int)) ∧ ∃ f adj, selectForm v = .ok { form := f, adj := adj, width := Form.width f } ∧
      adj < 2 ^ Form.payloadBits f ∧ ((Form.base f + adj : Nat) : Int) = v) := by
  by_cases h : v < 0 ∨ (maxValue : Int) < v
  · exact .inl ⟨h, by rw [selectForm, if_pos h]⟩
  · refine .inr ⟨by omega, ?_⟩
    obtain ⟨u, rfl⟩ : ∃ u : Nat, v = u := ⟨v.toNat, by omega⟩
    have hu : u ≤ maxValue := by omega
    rw [selectForm, if_neg h]
    by_cases hr : u ≤ 594213
    · have hk : ∃ k : RegForm, regForms.find? (fun k => decide ((u : Int).toNat ≤ (RegForm.descriptor k).top)) = some k ∧
          (RegForm.descriptor k).shift ≤ u ∧ u ≤ (RegForm.descriptor k).top := by
        have e1 : (RegForm.descriptor .f1).top = 1 := rfl
        have e2 : (RegForm.descriptor .f2).top = 5 := rfl
        have e3 : (RegForm.descriptor .f3).top = 37 := rfl
        have e4 : (RegForm.descriptor .f4).top = 293 := rfl
        have e5 : (RegForm.descriptor .f5).top = 4389 := rfl
        have e6 : (RegForm.descriptor .f6).top = 69925 := rfl
        have e7 : (RegForm.descriptor .f7).top = 594213 := rfl
        have s1 : (RegForm.descriptor .f1).shift = 0 := rfl
        have s2 : (RegForm.descriptor .f2).shift = 2 := rfl
        have s3 : (RegForm.descriptor .f3).shift = 6 := rfl
        have s4 : (RegForm.descriptor .f4).shift = 38 := rfl
        have s5 : (RegForm.descriptor .f5).shift = 294 := rfl
        have s6 : (RegForm.descriptor .f6).shift = 4390 := rfl
        have s7 : (RegForm.descriptor .f7).shift = 69926 := rfl
        simp only [regForms, List.find?, e1, e2, e3, e4, e5, e6, e7, Int.toNat_natCast]
        by_cases h1 : u ≤ 1
        · exact ⟨.f1, by simp [h1], by omega, by omega⟩
        by_cases h2 : u ≤ 5
        · exact ⟨.f2, by simp [h1, h2], by omega, by omega⟩
        by_cases h3 : u ≤ 37
        · exact ⟨.f3, by simp [h1, h2, h3], by omega, by omega⟩
        by_cases h4 : u ≤ 293
        · exact ⟨.f4, by simp [h1, h2, h3, h4], by omega, by omega⟩
        by_cases h5 : u ≤ 4389
        · exact ⟨.f5, by simp [h1, h2, h3, h4, h5], by omega, by omega⟩
        by_cases h6 : u ≤ 69925
        · exact ⟨.f6, by simp [h1, h2, h3, h4, h5, h6], by omega, by omega⟩
        · exact ⟨.f7, by simp [h1, h2, h3, h4, h5, h6, hr], by omega, by omega⟩
      obtain ⟨k, hf, hs, ht⟩ := hk
      have htop : (RegForm.descriptor k).top + 1 = (RegForm.descriptor k).shift + 2 ^ (RegForm.descriptor k).dataBits := by
        cases k <;> rfl
      refine ⟨.reg k, u - (RegForm.descriptor k).shift, ?_, ?_, ?_⟩
      · rw [hf]; rfl
      · simp only [Form.payloadBits]; omega
      · simp only [Form.base]; omega
    · have hnone : regForms.find? (fun k => decide ((u : Int).toNat ≤ (RegForm.descriptor k).top)) = none := by
        rw [List.find?_eq_none]
        intro k _
        have : (RegForm.descriptor k).top ≤ 594213 := by cases k <;> decide
        simp; omega
      obtain ⟨n, hn, -, hfit⟩ := rawSelect_ok hu
      refine ⟨.raw n, u - rawOffset, ?_, hfit, ?_⟩
      · rw [hnone]; exact hn
      · simp only [Form.base, rawOffset_eq]; omega

/-- A code word whose bits stand at bit `a` of a buffer is read back (R66, R67). -/
theorem decodeAt_of_bits {b : Memory} {a : Nat} (f : Form) (d : Nat) (hd : d < 2 ^ Form.payloadBits f)
    (hl : a + Form.width f ≤ 8 * b.length)
    (hb : ∀ i < Form.width f, Memory.bit b (a + i) = (Form.prefixValue f + d * 2 ^ Form.prefixBits f).testBit i) :
    decodeAt b a = .ok (f, d) := by
  have hw := Form.width_bounds f
  have hpv := Form.prefixValue_lt f
  refine decodeCodeWord_of_code f d (by omega) ?_
  refine Nat.eq_of_testBit_eq fun i => ?_
  rw [Nat.testBit_mod_two_pow, Memory.testBit_read]
  by_cases hi : i < Form.width f
  · have : i < min maxCodeBits (8 * b.length - a) := by unfold maxCodeBits; omega
    simp [hi, this, hb i hi]
  · have hlt : Form.prefixValue f + d * 2 ^ Form.prefixBits f < 2 ^ Form.width f := by
      have hsplit : 2 ^ Form.width f = 2 ^ Form.payloadBits f * 2 ^ Form.prefixBits f := by
        rw [← pow_add, Nat.add_comm]; rfl
      rw [hsplit]
      calc _ < 2 ^ Form.prefixBits f + d * 2 ^ Form.prefixBits f := by omega
        _ = (d + 1) * 2 ^ Form.prefixBits f := by ring
        _ ≤ _ := Nat.mul_le_mul_right _ hd
    rw [Nat.testBit_lt_two_pow (lt_of_lt_of_le hlt (Nat.pow_le_pow_right (by decide) (by omega)))]
    simp [hi]

/-- A code word fits its width (R53). -/
theorem encodeCodeWord_lt {f : Form} {d : Nat} (hd : d < 2 ^ Form.payloadBits f) :
    (encodeCodeWord f d).word < 2 ^ (encodeCodeWord f d).nbits := by
  have hpv := Form.prefixValue_lt f
  have hsplit : 2 ^ Form.width f = 2 ^ Form.payloadBits f * 2 ^ Form.prefixBits f := by
    rw [← pow_add, Nat.add_comm]; rfl
  show Form.prefixValue f + d * 2 ^ Form.prefixBits f < 2 ^ Form.width f
  rw [hsplit]
  calc _ < 2 ^ Form.prefixBits f + d * 2 ^ Form.prefixBits f := by omega
    _ = (d + 1) * 2 ^ Form.prefixBits f := by ring
    _ ≤ _ := Nat.mul_le_mul_right _ hd

theorem codeWordOf_codeWordInstr (f : Form) (d : Nat) : codeWordOf (codeWordInstr f d) = some (f, d) := by
  cases f with
  | reg k => cases k <;> rfl
  | raw n => cases n <;> rfl

theorem wf_codeWordInstr (f : Form) (d : Nat) :
    (codeWordInstr f d).wf = decide (d < 2 ^ Form.payloadBits f) := by
  cases f with
  | reg k => cases k <;> rfl
  | raw n => cases n <;> rfl

theorem eq_codeWordInstr {i : Instr} {f : Form} {d : Nat} (h : codeWordOf i = some (f, d)) :
    i = codeWordInstr f d := by
  cases i <;> simp [codeWordOf] at h <;> obtain ⟨rfl, rfl⟩ := h <;> rfl

end Sys2Proof.Machine
end

