-- ==== Sys2Proof/Laws/Ops.lean ====
section
/-! SUPPORT. Laws of the shared operations: for each, once, all that it can do. -/

namespace Sys2Proof.Machine

open Sys2Proof

theorem usableWriter_eq_some {s : State} {c : Writer} : usableWriter s = some c ↔ s.status = .ok ∧ s.w = .live c := by
  unfold usableWriter
  split <;> simp_all

theorem usableReader_eq_some {s : State} {c : Reader} : usableReader s = some c ↔ s.status = .ok ∧ s.r = .live c := by
  unfold usableReader
  split <;> simp_all

theorem callReader_eq_some {s : State} {c : Reader} :
    callReader s = some c ↔ s.status = .ok ∧ s.r = .live c ∧ s.d.state = .awaitingValue := by
  rw [← and_assoc, ← usableReader_eq_some]
  unfold callReader
  split <;> simp_all

/-- All that an operation on the writer cursor can do (R134): run on the cursor, or be rejected. -/
theorem onWriter_cases {s t : State} {k : Writer → State} (h : onWriter s k = .next t) :
    (∃ c, s.status = .ok ∧ s.w = .live c ∧ t = k c) ∨ (usableWriter s = none ∧ t = reject s) := by
  unfold onWriter at h
  split at h
  · rename_i c hc
    obtain ⟨h1, h2⟩ := usableWriter_eq_some.1 hc
    exact .inl ⟨c, h1, h2, by cases h; rfl⟩
  · exact .inr ⟨by assumption, by cases h; rfl⟩

/-- All that an operation on the reader cursor can do (R134): run on the cursor, or be rejected. -/
theorem onReader_cases {s t : State} {k : Reader → State} (h : onReader s k = .next t) :
    (∃ c, s.status = .ok ∧ s.r = .live c ∧ t = k c) ∨ (usableReader s = none ∧ t = reject s) := by
  unfold onReader at h
  split at h
  · rename_i c hc
    obtain ⟨h1, h2⟩ := usableReader_eq_some.1 hc
    exact .inl ⟨c, h1, h2, by cases h; rfl⟩
  · exact .inr ⟨by assumption, by cases h; rfl⟩

theorem onWriter_live {s : State} {c : Writer} (k : Writer → State) (h1 : s.status = .ok) (h2 : s.w = .live c) :
    onWriter s k = .next (k c) := by
  rw [onWriter, usableWriter_eq_some.2 ⟨h1, h2⟩]

theorem onReader_live {s : State} {c : Reader} (k : Reader → State) (h1 : s.status = .ok) (h2 : s.r = .live c) :
    onReader s k = .next (k c) := by
  rw [onReader, usableReader_eq_some.2 ⟨h1, h2⟩]

/-- When a code word runs and what it leaves (R110). -/
theorem codeWordPass_ok {f : Form} {x : Nat} {r r' : Reader} {d d' : DecodeRecord} :
    codeWordPass f x r d = .ok (r', d') ↔
      Form.width f ≤ Reader.rem r ∧ Form.base f + x ≤ maxValue ∧
        r' = Reader.skip r (Form.width f) ∧ d' = DecodeRecord.push d (Form.base f + x) := by
  have hw := Form.width_bounds f
  unfold codeWordPass
  split
  · exact ⟨fun h => by simp at h, fun h => by omega⟩
  · split
    · exact ⟨fun h => by simp at h, fun h => by omega⟩
    · split
      · exact ⟨fun h => by simp at h, fun h => by omega⟩
      · constructor
        · intro h; simp at h; exact ⟨by omega, by omega, h.1.symm, h.2.symm⟩
        · rintro ⟨-, -, rfl, rfl⟩; rfl

/-- When a code word fails, and with which error (R110 to R114, in the order of R129). -/
theorem codeWordPass_error {f : Form} {x : Nat} {r : Reader} {d : DecodeRecord} {e : ErrorKind} :
    codeWordPass f x r d = .error e ↔
      (Reader.rem r = 0 ∧ e = .overRequest) ∨
      (Reader.rem r ≠ 0 ∧ Reader.rem r < Form.width f ∧ e = .truncatedInput) ∨
      (Form.width f ≤ Reader.rem r ∧ maxValue < Form.base f + x ∧ e = .range) := by
  have hw := Form.width_bounds f
  unfold codeWordPass
  split
  · simp; constructor
    · rintro rfl; simp_all
    · rintro (⟨-, rfl⟩ | ⟨h, -⟩ | ⟨h, -⟩) <;> first | rfl | omega
  · split
    · simp; constructor
      · rintro rfl; simp_all
      · rintro (⟨h, -⟩ | ⟨-, -, rfl⟩ | ⟨h, -⟩) <;> first | rfl | omega
    · split
      · simp; constructor
        · rintro rfl; simp_all
        · rintro (⟨h, -⟩ | ⟨-, h, -⟩ | ⟨-, -, rfl⟩) <;> first | rfl | omega
      · simp; refine ⟨by omega, by omega, by omega⟩

/-- Prefix then payload is the code word `PV + adj · 2^P` (R53, R77, R102). -/
theorem codeBits_eq (f : Form) (d : Nat) :
    codeBits f d =
      fieldBits (Form.prefixValue f) (Form.prefixBits f) ++ fieldBits d (Form.payloadBits f) := by
  have hpv := Form.prefixValue_lt f
  have e1 : (Form.prefixValue f + d * 2 ^ Form.prefixBits f) / 2 ^ Form.prefixBits f = d := by
    rw [Nat.add_mul_div_right _ _ (Nat.two_pow_pos _), Nat.div_eq_of_lt hpv, Nat.zero_add]
  have e2 : (Form.prefixValue f + d * 2 ^ Form.prefixBits f) % 2 ^ Form.prefixBits f = Form.prefixValue f := by
    rw [Nat.add_mul_mod_self_right, Nat.mod_eq_of_lt hpv]
  simp only [codeBits, encodeCodeWord, Form.width]
  rw [fieldBits_add, e1, ← fieldBits_mod _ _ _ le_rfl, e2]

theorem emitCodeWord_spec {w : Writer} (h : Writer.wf w = true) (ev : EncodedValue) :
    Writer.wf (emitCodeWord w ev) = true ∧
      Writer.bits (emitCodeWord w ev) =
        Writer.bits w ++ codeBits ev.form ev.adj := by
  have h1 := Writer.emit_wf h (Form.prefixValue ev.form) (Form.prefixBits ev.form)
  refine ⟨Writer.emit_wf h1 _ _, ?_⟩
  rw [emitCodeWord, Writer.emit_bits h1, Writer.emit_bits h, codeBits_eq, List.append_assoc]

/-- The loop of CODEC.ENCODE where every value is in the domain (R104). -/
theorem encodeLoop_ok (vs : List Int) (w : Writer) (i : Nat) (h : Writer.wf w = true)
    (hv : ∀ v ∈ vs, 0 ≤ v ∧ v ≤ (maxValue : Int)) :
    ∃ w', encodeLoop vs w i = .ok (w', i + vs.length) ∧ Writer.wf w' = true ∧
      Writer.bits w' = Writer.bits w ++ vs.flatMap valueBits := by
  induction vs generalizing w i with
  | nil => exact ⟨w, rfl, h, by simp⟩
  | cons v vs ih =>
    rcases selectForm_cases v with ⟨hbad, -⟩ | ⟨-, f, adj, hs, -, -⟩
    · have := hv v (by simp); omega
    · obtain ⟨h1, h2⟩ := emitCodeWord_spec h { form := f, adj := adj, width := Form.width f }
      obtain ⟨w', e1, e2, e3⟩ := ih _ (i + 1) h1 (fun v hm => hv v (by simp [hm]))
      refine ⟨w', ?_, e2, ?_⟩
      · rw [encodeLoop, hs]; simp only [e1, List.length_cons]; congr 2; omega
      · rw [e3, h2, List.append_assoc]; simp [valueBits, hs]

/-- The loop of CODEC.ENCODE where some value is outside the domain (R103, R105): RangeError. -/
theorem encodeLoop_error (vs : List Int) (w : Writer) (i : Nat)
    (hv : ∃ v ∈ vs, v < 0 ∨ (maxValue : Int) < v) : encodeLoop vs w i = .error .range := by
  induction vs generalizing w i with
  | nil => simp at hv
  | cons v vs ih =>
    rcases selectForm_cases v with ⟨-, hs⟩ | ⟨hin, f, adj, hs, -, -⟩
    · rw [encodeLoop, hs]
    · rw [encodeLoop, hs]
      refine ih _ _ ?_
      obtain ⟨u, hu, hb⟩ := hv
      rcases List.mem_cons.1 hu with rfl | hm
      · omega
      · exact ⟨u, hm, hb⟩

theorem decodeLoop_done {fuel : Nat} {r : Reader} {d : DecodeRecord} (h : d.state = .done) :
    decodeLoop fuel r d = .ok (r, d) := by
  cases fuel <;> simp [decodeLoop, h]

theorem decodeLoop_ok_pass {fuel : Nat} {r r' : Reader} {d d' : DecodeRecord} (h : d.state = .awaitingValue)
    (hp : decodePass r d = .ok (r', d')) : decodeLoop (fuel + 1) r d = decodeLoop fuel r' d' := by
  simp [decodeLoop, h, hp]

theorem decodeLoop_error_pass {fuel : Nat} {r : Reader} {d : DecodeRecord} {e : ErrorKind}
    (h : d.state = .awaitingValue) (hp : decodePass r d = .error e) : decodeLoop (fuel + 1) r d = .error e := by
  simp [decodeLoop, h, hp]

/-- The errors a pass of decode can give (R128). -/
theorem decodePass_error_kind {r : Reader} {d : DecodeRecord} {e : ErrorKind} (h : decodePass r d = .error e) :
    e = .overRequest ∨ e = .truncatedInput ∨ e = .range := by
  unfold decodePass at h
  split at h
  · rcases codeWordPass_error.1 h with ⟨-, rfl⟩ | ⟨-, -, rfl⟩ | ⟨-, -, rfl⟩ <;> simp
  · rename_i k _
    cases h; cases k <;> simp [streamError]

theorem decodeLoop_error_kind {fuel : Nat} {r : Reader} {d : DecodeRecord} {e : ErrorKind}
    (h : decodeLoop fuel r d = .error e) : e = .overRequest ∨ e = .truncatedInput ∨ e = .range := by
  induction fuel generalizing r d with
  | zero => simp [decodeLoop] at h
  | succ n ih =>
    unfold decodeLoop at h
    split at h
    · simp at h
    · split at h
      · exact ih h
      · rename_i e' hp; cases h; exact decodePass_error_kind hp

/-- Every code word's meaning is the one shared operation on its form (R110). -/
theorem exec_codeWordInstr (f : Form) (d : Nat) (s : State) : exec (codeWordInstr f d) s = codeWord f d s := by
  cases f with
  | reg k => cases k <;> rfl
  | raw n => cases n <;> rfl

/-- All that a code word can do (R110). -/
theorem codeWord_cases {f : Form} {x : Nat} {s t : State} (h : codeWord f x s = .next t) :
    (callReader s = none ∧ t = s) ∨
    (∃ c, callReader s = some c ∧ Form.width f ≤ Reader.rem c ∧ Form.base f + x ≤ maxValue ∧
      t = { s with r := .live (Reader.skip c (Form.width f)), d := DecodeRecord.push s.d (Form.base f + x) }) ∨
    (∃ c e, callReader s = some c ∧ codeWordPass f x c s.d = .error e ∧ t = raise e s) := by
  unfold codeWord at h
  split at h
  · exact .inl ⟨by assumption, by cases h; rfl⟩
  · rename_i c hc
    split at h
    · rename_i r' d' hp
      obtain ⟨h1, h2, rfl, rfl⟩ := codeWordPass_ok.1 hp
      exact .inr (.inl ⟨c, hc, h1, h2, by cases h; rfl⟩)
    · rename_i e hp
      exact .inr (.inr ⟨c, e, hc, hp, by cases h; rfl⟩)

end Sys2Proof.Machine
end

