-- ==== Sys2Proof/Laws/PerInstr.lean ====
section
/-! SUPPORT. What holds of every instruction as syntax: a well-formed instruction's bits fit its width
(30_encoding.md R53, R71). -/

namespace Sys2Proof.Laws.EncodingFits

open Sys2Proof Sys2Proof.Machine

/-- The encoding of a well-formed instruction is a number of `nbits` bits. -/
def Statement (i : Instr) : Prop := i.wf = true → (encode i).word < 2 ^ (encode i).nbits

theorem codeWordFits (f : Form) (d : Nat) : Statement (codeWordInstr f d) := by
  intro h
  rw [wf_codeWordInstr] at h
  have he : encode (codeWordInstr f d) = encodeCodeWord f d := by simp only [encode, codeWordOf_codeWordInstr]
  rw [he]
  exact encodeCodeWord_lt (by simpa using h)

theorem bwNew : Statement .bwNew := fun _ => by decide
theorem bwEmit : Statement .bwEmit := fun _ => by decide
theorem bwFinalize : Statement .bwFinalize := fun _ => by decide
theorem brNew : Statement .brNew := fun _ => by decide
theorem brPeek : Statement .brPeek := fun _ => by decide
theorem brReadBits : Statement .brReadBits := fun _ => by decide
theorem ftSelect : Statement .ftSelect := fun _ => by decide
theorem ftClassify : Statement .ftClassify := fun _ => by decide
theorem codecEncode : Statement .codecEncode := fun _ => by decide
theorem codecDecode : Statement .codecDecode := fun _ => by decide
theorem reservedA : Statement .reservedA := fun _ => by decide
theorem reservedB : Statement .reservedB := fun _ => by decide
theorem reservedC : Statement .reservedC := fun _ => by decide
theorem reservedD : Statement .reservedD := fun _ => by decide
theorem reservedE : Statement .reservedE := fun _ => by decide
theorem reservedF : Statement .reservedF := fun _ => by decide
theorem cwF1 (d : Nat) : Statement (.cwF1 d) := codeWordFits (.reg .f1) d
theorem cwF2 (d : Nat) : Statement (.cwF2 d) := codeWordFits (.reg .f2) d
theorem cwF3 (d : Nat) : Statement (.cwF3 d) := codeWordFits (.reg .f3) d
theorem cwF4 (d : Nat) : Statement (.cwF4 d) := codeWordFits (.reg .f4) d
theorem cwF5 (d : Nat) : Statement (.cwF5 d) := codeWordFits (.reg .f5) d
theorem cwF6 (d : Nat) : Statement (.cwF6 d) := codeWordFits (.reg .f6) d
theorem cwF7 (d : Nat) : Statement (.cwF7 d) := codeWordFits (.reg .f7) d
theorem cwRawN2 (d : Nat) : Statement (.cwRawN2 d) := codeWordFits (.raw .n2) d
theorem cwRawN3 (d : Nat) : Statement (.cwRawN3 d) := codeWordFits (.raw .n3) d
theorem cwRawN4 (d : Nat) : Statement (.cwRawN4 d) := codeWordFits (.raw .n4) d
theorem cwRawN5 (d : Nat) : Statement (.cwRawN5 d) := codeWordFits (.raw .n5) d
theorem cwRawN6 (d : Nat) : Statement (.cwRawN6 d) := codeWordFits (.raw .n6) d
theorem cwRawN7 (d : Nat) : Statement (.cwRawN7 d) := codeWordFits (.raw .n7) d

end Sys2Proof.Laws.EncodingFits
end

