-- ==== Sys2Proof/Laws/State.lean ====
section
/-! SUPPORT. What each update of the state leaves in each field. -/

namespace Sys2Proof.Machine

open Sys2Proof

@[simp] theorem answer_w (s : State) (r : Response) : (State.answer s r).w = s.w := rfl
@[simp] theorem answer_r (s : State) (r : Response) : (State.answer s r).r = s.r := rfl
@[simp] theorem answer_d (s : State) (r : Response) : (State.answer s r).d = s.d := rfl
@[simp] theorem answer_encIdx (s : State) (r : Response) : (State.answer s r).encIdx = s.encIdx := rfl
@[simp] theorem answer_status (s : State) (r : Response) : (State.answer s r).status = s.status := rfl
@[simp] theorem answer_op (s : State) (r : Response) : (State.answer s r).op = s.op := rfl
@[simp] theorem answer_args (s : State) (r : Response) : (State.answer s r).args = s.args := rfl
@[simp] theorem answer_resp (s : State) (r : Response) : (State.answer s r).resp = { r with code := Status.code s.status } := rfl
@[simp] theorem answer_inbox (s : State) (r : Response) : (State.answer s r).inbox = s.inbox := rfl
@[simp] theorem answer_free (s : State) (r : Response) : (State.answer s r).free = s.free := rfl

@[simp] theorem raise_w (e : ErrorKind) (s : State) : (raise e s).w = Slot.writerAfter e s.free s.w := rfl
@[simp] theorem raise_r (e : ErrorKind) (s : State) : (raise e s).r = Slot.readerAfter e s.free s.r := rfl
@[simp] theorem raise_d (e : ErrorKind) (s : State) : (raise e s).d = { s.d with out := Config.freeDecodeOut s.free } := rfl
@[simp] theorem raise_encIdx (e : ErrorKind) (s : State) : (raise e s).encIdx = Config.freeEncodeIndex s.free := rfl
@[simp] theorem raise_status (e : ErrorKind) (s : State) : (raise e s).status = .fault e := rfl
@[simp] theorem raise_op (e : ErrorKind) (s : State) : (raise e s).op = s.op := rfl
@[simp] theorem raise_args (e : ErrorKind) (s : State) : (raise e s).args = s.args := rfl
@[simp] theorem raise_resp (e : ErrorKind) (s : State) : (raise e s).resp = Response.bare (ErrorKind.code e) := rfl
@[simp] theorem raise_inbox (e : ErrorKind) (s : State) : (raise e s).inbox = s.inbox := rfl
@[simp] theorem raise_free (e : ErrorKind) (s : State) : (raise e s).free = s.free + 1 := rfl

@[simp] theorem reject_w (s : State) : (reject s).w = s.w := rfl
@[simp] theorem reject_r (s : State) : (reject s).r = s.r := rfl
@[simp] theorem reject_d (s : State) : (reject s).d = s.d := rfl
@[simp] theorem reject_encIdx (s : State) : (reject s).encIdx = s.encIdx := rfl
@[simp] theorem reject_status (s : State) : (reject s).status = s.status := rfl
@[simp] theorem reject_op (s : State) : (reject s).op = s.op := rfl
@[simp] theorem reject_args (s : State) : (reject s).args = s.args := rfl
@[simp] theorem reject_resp (s : State) : (reject s).resp = Response.bare (ErrorKind.code .illegalOperation) := rfl
@[simp] theorem reject_inbox (s : State) : (reject s).inbox = s.inbox := rfl
@[simp] theorem reject_free (s : State) : (reject s).free = s.free := rfl

@[simp] theorem newWriter_w (s : State) : (newWriter s).w = .live Writer.empty := rfl
@[simp] theorem newWriter_r (s : State) : (newWriter s).r = s.r := rfl
@[simp] theorem newWriter_d (s : State) : (newWriter s).d = s.d := rfl
@[simp] theorem newWriter_encIdx (s : State) : (newWriter s).encIdx = s.encIdx := rfl
@[simp] theorem newWriter_status (s : State) : (newWriter s).status = .ok := rfl
@[simp] theorem newWriter_op (s : State) : (newWriter s).op = s.op := rfl
@[simp] theorem newWriter_args (s : State) : (newWriter s).args = s.args := rfl
@[simp] theorem newWriter_resp (s : State) : (newWriter s).resp = s.resp := rfl
@[simp] theorem newWriter_inbox (s : State) : (newWriter s).inbox = s.inbox := rfl
@[simp] theorem newWriter_free (s : State) : (newWriter s).free = s.free := rfl

@[simp] theorem newReader_w (b : List Byte) (s : State) : (newReader b s).w = s.w := rfl
@[simp] theorem newReader_r (b : List Byte) (s : State) : (newReader b s).r = .live (Reader.over b) := rfl
@[simp] theorem newReader_d (b : List Byte) (s : State) : (newReader b s).d = s.d := rfl
@[simp] theorem newReader_encIdx (b : List Byte) (s : State) : (newReader b s).encIdx = s.encIdx := rfl
@[simp] theorem newReader_status (b : List Byte) (s : State) : (newReader b s).status = .ok := rfl
@[simp] theorem newReader_op (b : List Byte) (s : State) : (newReader b s).op = s.op := rfl
@[simp] theorem newReader_args (b : List Byte) (s : State) : (newReader b s).args = s.args := rfl
@[simp] theorem newReader_resp (b : List Byte) (s : State) : (newReader b s).resp = s.resp := rfl
@[simp] theorem newReader_inbox (b : List Byte) (s : State) : (newReader b s).inbox = s.inbox := rfl
@[simp] theorem newReader_free (b : List Byte) (s : State) : (newReader b s).free = s.free := rfl

@[simp] theorem load_w (s : State) (q : Request) (rest : List Request) : (State.load s q rest).w = s.w := rfl
@[simp] theorem load_r (s : State) (q : Request) (rest : List Request) : (State.load s q rest).r = s.r := rfl
@[simp] theorem load_d (s : State) (q : Request) (rest : List Request) : (State.load s q rest).d = s.d := rfl
@[simp] theorem load_encIdx (s : State) (q : Request) (rest : List Request) : (State.load s q rest).encIdx = s.encIdx := rfl
@[simp] theorem load_status (s : State) (q : Request) (rest : List Request) : (State.load s q rest).status = s.status := rfl
@[simp] theorem load_op (s : State) (q : Request) (rest : List Request) : (State.load s q rest).op = q.op := rfl
@[simp] theorem load_args (s : State) (q : Request) (rest : List Request) : (State.load s q rest).args = q.args := rfl
@[simp] theorem load_resp (s : State) (q : Request) (rest : List Request) : (State.load s q rest).resp = s.resp := rfl
@[simp] theorem load_inbox (s : State) (q : Request) (rest : List Request) : (State.load s q rest).inbox = rest := rfl
@[simp] theorem load_free (s : State) (q : Request) (rest : List Request) : (State.load s q rest).free = s.free := rfl

@[simp] theorem startDecode_w (s : State) : (startDecode s).w = s.w := rfl
@[simp] theorem startDecode_r (s : State) : (startDecode s).r = .live (Reader.over s.args.bytesIn) := rfl
@[simp] theorem startDecode_d (s : State) : (startDecode s).d = DecodeRecord.start s.args.count := rfl
@[simp] theorem startDecode_encIdx (s : State) : (startDecode s).encIdx = s.encIdx := rfl
@[simp] theorem startDecode_status (s : State) : (startDecode s).status = .ok := rfl
@[simp] theorem startDecode_op (s : State) : (startDecode s).op = s.op := rfl
@[simp] theorem startDecode_args (s : State) : (startDecode s).args = s.args := rfl
@[simp] theorem startDecode_resp (s : State) : (startDecode s).resp = s.resp := rfl
@[simp] theorem startDecode_inbox (s : State) : (startDecode s).inbox = s.inbox := rfl
@[simp] theorem startDecode_free (s : State) : (startDecode s).free = s.free := rfl

@[simp] theorem finishDecode_w (s : State) : (finishDecode s).w = s.w := rfl
@[simp] theorem finishDecode_r (s : State) : (finishDecode s).r = .absent := rfl
@[simp] theorem finishDecode_d (s : State) : (finishDecode s).d = s.d := rfl
@[simp] theorem finishDecode_encIdx (s : State) : (finishDecode s).encIdx = s.encIdx := rfl
@[simp] theorem finishDecode_status (s : State) : (finishDecode s).status = s.status := rfl
@[simp] theorem finishDecode_op (s : State) : (finishDecode s).op = s.op := rfl
@[simp] theorem finishDecode_args (s : State) : (finishDecode s).args = s.args := rfl
@[simp] theorem finishDecode_resp (s : State) : (finishDecode s).resp = { Response.bare (Status.code s.status) with valuesOut := some s.d.out } := rfl
@[simp] theorem finishDecode_inbox (s : State) : (finishDecode s).inbox = s.inbox := rfl
@[simp] theorem finishDecode_free (s : State) : (finishDecode s).free = s.free := rfl

@[simp] theorem withFetchWord_w (s : State) (nbits w : Nat) : (State.withFetchWord s nbits w).w = s.w := rfl
@[simp] theorem withFetchWord_r (s : State) (nbits w : Nat) : (State.withFetchWord s nbits w).r = s.r := rfl
@[simp] theorem withFetchWord_d (s : State) (nbits w : Nat) : (State.withFetchWord s nbits w).d = s.d := rfl
@[simp] theorem withFetchWord_encIdx (s : State) (nbits w : Nat) : (State.withFetchWord s nbits w).encIdx = s.encIdx := rfl
@[simp] theorem withFetchWord_status (s : State) (nbits w : Nat) : (State.withFetchWord s nbits w).status = s.status := rfl
@[simp] theorem withFetchWord_op (s : State) (nbits w : Nat) : (State.withFetchWord s nbits w).op = s.op := rfl
@[simp] theorem withFetchWord_args (s : State) (nbits w : Nat) : (State.withFetchWord s nbits w).args = s.args := rfl
@[simp] theorem withFetchWord_resp (s : State) (nbits w : Nat) : (State.withFetchWord s nbits w).resp = s.resp := rfl
@[simp] theorem withFetchWord_inbox (s : State) (nbits w : Nat) : (State.withFetchWord s nbits w).inbox = wordRequest nbits w :: s.inbox := rfl
@[simp] theorem withFetchWord_free (s : State) (nbits w : Nat) : (State.withFetchWord s nbits w).free = s.free := rfl

/-- The reset state's memory is in canonical form. -/
theorem reset_memory_wf : Memory.wf State.reset.w State.reset.r = true := rfl

theorem writerAfter_not_live (e : ErrorKind) (k : Nat) (w : Slot Writer) : Slot.isLive (Slot.writerAfter e k w) = false := by
  cases w <;> simp only [Slot.writerAfter] <;> (try split) <;> rfl

theorem readerAfter_not_live (e : ErrorKind) (k : Nat) (r : Slot Reader) : Slot.isLive (Slot.readerAfter e k r) = false := by
  cases r <;> cases e <;> rfl

/-- A place with no usable cursor puts no demand on the canonical form. -/
theorem wf_of_not_live {w : Slot Writer} {r : Slot Reader} (hw : Slot.isLive w = false) (hr : Slot.isLive r = false) :
    Memory.wf w r = true := by
  cases w <;> cases r <;> simp_all [Slot.isLive, Memory.wf]

/-- Raising an error leaves the memory in canonical form. -/
theorem raise_memory_wf (e : ErrorKind) (s : State) : Memory.wf (raise e s).w (raise e s).r = true :=
  wf_of_not_live (writerAfter_not_live _ _ _) (readerAfter_not_live _ _ _)

/-- The canonical form of the memory, place by place. -/
theorem memory_wf_iff {w : Slot Writer} {r : Slot Reader} :
    Memory.wf w r = true ↔ (∀ c, w = .live c → Writer.wf c = true) ∧ (∀ c, r = .live c → Reader.wf c = true) := by
  cases w <;> cases r <;> simp [Memory.wf]

/-- Creating a writer keeps the canonical form of the memory. -/
theorem newWriter_memory_wf {s : State} (h : Memory.wf s.w s.r = true) :
    Memory.wf (newWriter s).w (newWriter s).r = true := by
  rw [memory_wf_iff] at h ⊢
  exact ⟨fun c hc => by cases hc; rfl, h.2⟩

/-- Creating a reader keeps the canonical form of the memory. -/
theorem newReader_memory_wf {s : State} (b : List Byte) (h : Memory.wf s.w s.r = true) :
    Memory.wf (newReader b s).w (newReader b s).r = true := by
  rw [memory_wf_iff] at h ⊢
  exact ⟨h.1, fun c hc => by cases hc; simp [Reader.wf, Reader.over]⟩

/-- EMIT keeps the canonical form of the memory. -/
theorem emit_memory_wf {c : Writer} {r : Slot Reader} (v n : Nat) (h : Memory.wf (.live c) r = true) :
    Memory.wf (.live (Writer.emit c v n)) r = true := by
  rw [memory_wf_iff] at h ⊢
  exact ⟨fun c' hc => by cases hc; exact Writer.emit_wf (h.1 c rfl) v n, h.2⟩

/-- Consuming bits that are there keeps the canonical form of the memory. -/
theorem skip_memory_wf {w : Slot Writer} {c : Reader} {n : Nat} (h : Memory.wf w (.live c) = true)
    (hn : n ≤ Reader.rem c) : Memory.wf w (.live (Reader.skip c n)) = true := by
  rw [memory_wf_iff] at h ⊢
  refine ⟨h.1, fun c' hc => ?_⟩
  cases hc
  have := h.2 c rfl
  simp only [Reader.wf, decide_eq_true_eq] at this
  unfold Reader.rem at hn
  have hb : c.n + n ≤ 8 * c.buf.length := by omega
  exact decide_eq_true hb

end Sys2Proof.Machine
end

