-- ==== Sys2Proof/Tests/Slice0.lean ====
section
/-! SUPPORT. Tests of the model, each expected result from 95_test_vectors.md or worked by hand from the rule named, and
for every statement with hypotheses a witness that meets them all. -/

namespace Sys2Proof.Tests

open Sys2Proof Sys2Proof.Machine

/-! ### WellFormed: a payload one above its width is refused -/

theorem test_wf_refuses_cwF1 : (Instr.cwF1 2).wf = false := by decide
theorem test_wf_refuses_cwF2 : (Instr.cwF2 4).wf = false := by decide
theorem test_wf_refuses_cwF3 : (Instr.cwF3 32).wf = false := by decide
theorem test_wf_refuses_cwF4 : (Instr.cwF4 256).wf = false := by decide
theorem test_wf_refuses_cwF5 : (Instr.cwF5 4096).wf = false := by decide
theorem test_wf_refuses_cwF6 : (Instr.cwF6 65536).wf = false := by decide
theorem test_wf_refuses_cwF7 : (Instr.cwF7 524288).wf = false := by decide
theorem test_wf_refuses_cwRawN2 : (Instr.cwRawN2 16777216).wf = false := by decide
theorem test_wf_refuses_cwRawN3 : (Instr.cwRawN3 4294967296).wf = false := by decide
theorem test_wf_refuses_cwRawN4 : (Instr.cwRawN4 1099511627776).wf = false := by decide
theorem test_wf_refuses_cwRawN5 : (Instr.cwRawN5 281474976710656).wf = false := by decide
theorem test_wf_refuses_cwRawN6 : (Instr.cwRawN6 72057594037927936).wf = false := by decide
theorem test_wf_refuses_cwRawN7 : (Instr.cwRawN7 18446744073709551616).wf = false := by decide
theorem test_wf_takes_the_largest_payloads :
    [Instr.cwF1 1, .cwF2 3, .cwF3 31, .cwF4 255, .cwF5 4095, .cwF6 65535, .cwF7 524287, .cwRawN2 16777215,
      .cwRawN3 4294967295, .cwRawN4 1099511627775, .cwRawN5 281474976710655, .cwRawN6 72057594037927935,
      .cwRawN7 18446744073709551615].all Instr.wf = true := by decide

/-! ### Decode: words written out bit by bit from the encodings (30_encoding.md R55 to R62, R71, R72)

The bits of a code word stand in stream order, the first bit sent on the left of the list. -/

/-- The number whose bits, first bit least significant, are these. -/
def ofBits : List Bool → Nat
  | [] => 0
  | b :: bs => b.toNat + 2 * ofBits bs

/-- `n` zero bits. -/
def zeros (n : Nat) : List Bool := List.replicate n false

/-- What the decoder reads from bits in stream order. -/
def read (bits : List Bool) : Except DecodeError Instr := decode .stream { nbits := bits.length, word := ofBits bits }

-- the ten operation codes of R71 and the six reserved codes of R72
theorem test_decode_bwNew : decode .command { nbits := 4, word := 0b0000 } = .ok .bwNew := by decide
theorem test_decode_bwEmit : decode .command { nbits := 4, word := 0b0001 } = .ok .bwEmit := by decide
theorem test_decode_bwFinalize : decode .command { nbits := 4, word := 0b0010 } = .ok .bwFinalize := by decide
theorem test_decode_brNew : decode .command { nbits := 4, word := 0b0011 } = .ok .brNew := by decide
theorem test_decode_brPeek : decode .command { nbits := 4, word := 0b0100 } = .ok .brPeek := by decide
theorem test_decode_brReadBits : decode .command { nbits := 4, word := 0b0101 } = .ok .brReadBits := by decide
theorem test_decode_ftSelect : decode .command { nbits := 4, word := 0b0110 } = .ok .ftSelect := by decide
theorem test_decode_ftClassify : decode .command { nbits := 4, word := 0b0111 } = .ok .ftClassify := by decide
theorem test_decode_codecEncode : decode .command { nbits := 4, word := 0b1000 } = .ok .codecEncode := by decide
theorem test_decode_codecDecode : decode .command { nbits := 4, word := 0b1001 } = .ok .codecDecode := by decide
theorem test_decode_reservedA : decode .command { nbits := 4, word := 0b1010 } = .ok .reservedA := by decide
theorem test_decode_reservedB : decode .command { nbits := 4, word := 0b1011 } = .ok .reservedB := by decide
theorem test_decode_reservedC : decode .command { nbits := 4, word := 0b1100 } = .ok .reservedC := by decide
theorem test_decode_reservedD : decode .command { nbits := 4, word := 0b1101 } = .ok .reservedD := by decide
theorem test_decode_reservedE : decode .command { nbits := 4, word := 0b1110 } = .ok .reservedE := by decide
theorem test_decode_reservedF : decode .command { nbits := 4, word := 0b1111 } = .ok .reservedF := by decide
-- R55 to R62: the prefix, then the payload, least significant bit first
theorem test_decode_cwF1 : read [false, true] = .ok (.cwF1 1) := by decide
theorem test_decode_cwF1_top : read [false, true] = .ok (.cwF1 1) := by decide
theorem test_decode_cwF2 : read [true, false, true, false] = .ok (.cwF2 1) := by decide
theorem test_decode_cwF2_top : read [true, false, false, true] = .ok (.cwF2 2) := by decide
theorem test_decode_cwF3 : read [true, true, false, true, false, false, false, false] = .ok (.cwF3 1) := by decide
theorem test_decode_cwF3_top : read [true, true, false, false, false, false, false, true] = .ok (.cwF3 16) := by decide
theorem test_decode_cwF4 : read [true, true, true, true, true, false, false, false, true, false, false, false, false, false, false, false] = .ok (.cwF4 1) := by decide
theorem test_decode_cwF4_top : read [true, true, true, true, true, false, false, false, false, false, false, false, false, false, false, true] = .ok (.cwF4 128) := by decide
theorem test_decode_cwF5 : read ([true, true, true, false, true] ++ zeros 11) = .ok (.cwF5 1) := by decide
theorem test_decode_cwF5_top : read ([true, true, true, false] ++ zeros 11 ++ [true]) = .ok (.cwF5 2048) := by decide
theorem test_decode_cwF6 : read ([true, true, true, true, true, true, false, false, true] ++ zeros 15) = .ok (.cwF6 1) := by decide
theorem test_decode_cwF6_top : read ([true, true, true, true, true, true, false, false] ++ zeros 15 ++ [true]) = .ok (.cwF6 32768) := by decide
theorem test_decode_cwF7 : read ([true, true, true, true, false, true] ++ zeros 18) = .ok (.cwF7 1) := by decide
theorem test_decode_cwF7_top : read ([true, true, true, true, false] ++ zeros 18 ++ [true]) = .ok (.cwF7 262144) := by decide
theorem test_decode_cwRawN2 : read ([true, true, true, true, true, false, true, false, true] ++ zeros 23) = .ok (.cwRawN2 1) := by decide
theorem test_decode_cwRawN2_top : read ([true, true, true, true, true, false, true, false] ++ zeros 23 ++ [true]) = .ok (.cwRawN2 8388608) := by decide
theorem test_decode_cwRawN3 : read ([true, true, true, true, true, true, true, false, true] ++ zeros 31) = .ok (.cwRawN3 1) := by decide
theorem test_decode_cwRawN3_top : read ([true, true, true, true, true, true, true, false] ++ zeros 31 ++ [true]) = .ok (.cwRawN3 2147483648) := by decide
theorem test_decode_cwRawN4 : read ([true, true, true, true, true, false, false, true, true] ++ zeros 39) = .ok (.cwRawN4 1) := by decide
theorem test_decode_cwRawN4_top : read ([true, true, true, true, true, false, false, true] ++ zeros 39 ++ [true]) = .ok (.cwRawN4 549755813888) := by decide
theorem test_decode_cwRawN5 : read ([true, true, true, true, true, true, false, true, true] ++ zeros 47) = .ok (.cwRawN5 1) := by decide
theorem test_decode_cwRawN5_top : read ([true, true, true, true, true, true, false, true] ++ zeros 47 ++ [true]) = .ok (.cwRawN5 140737488355328) := by decide
theorem test_decode_cwRawN6 : read ([true, true, true, true, true, false, true, true, true] ++ zeros 55) = .ok (.cwRawN6 1) := by decide +kernel
theorem test_decode_cwRawN6_top : read ([true, true, true, true, true, false, true, true] ++ zeros 55 ++ [true]) = .ok (.cwRawN6 36028797018963968) := by decide +kernel
theorem test_decode_cwRawN7 : read ([true, true, true, true, true, true, true, true, true] ++ zeros 63) = .ok (.cwRawN7 1) := by decide +kernel
theorem test_decode_cwRawN7_top : read ([true, true, true, true, true, true, true, true] ++ zeros 63 ++ [true]) = .ok (.cwRawN7 9223372036854775808) := by decide +kernel
theorem test_decode_no_bits : read [] = .error .noBits := by decide
theorem test_decode_cut_short : read [true, true, true, true, true, false, false, false] = .error .truncated := by decide
theorem test_decode_not_a_command : decode .command { nbits := 8, word := 0x10 } = .error .notACommand := by decide
theorem test_table_words :
    decodeTableWord 8 0x1 = some .bwEmit ∧ decodeTableWord 8 0xFB = some (.cwF3 31) ∧
    decodeTableWord 24 0x00000F = some (.cwF7 0) ∧ decodeTableWord 72 0xFF = some (.cwRawN7 0) := by decide +kernel

/-! ### One step each -/

/-- The state after one request. -/
def after (q : Request) (s : State) : State :=
  match call q s with
  | .next t => t
  | _ => s

/-- After `BW.NEW; BW.EMIT 0x5, 3` (95_test_vectors.md 4). -/
def writing : State := { State.reset with w := .live { buf := [0x05], pos := 3 } }

/-- After `BR.NEW E5 AB 01` (95_test_vectors.md 5). -/
def reading : State := { State.reset with r := .live { buf := [0xE5, 0xAB, 0x01], n := 0 } }

/-- A decode call over these bytes that wants so many values. -/
def calling (bytes : List Byte) (count : BitVec 64) : State :=
  { State.reset with
    r := .live { buf := bytes, n := 0 }
    d := { state := .awaitingValue, count := count, out := [] } }

-- section 4
theorem test_bwNew : (after reqBwNew writing).w = .live { buf := [], pos := 0 } := by decide
theorem test_bwEmit : (after (reqEmit 0xABC 12) writing).w = .live { buf := [0xE5, 0x55], pos := 7 } := by decide
theorem test_bwEmit_too_wide : (after (reqEmit 0 65) writing).status = .fault .illegalOperation := by decide
theorem test_bwFinalize : (after reqFinalize writing).resp.bytesOut = some [0x05] := by decide
-- section 5
theorem test_brNew : (after (reqBrNew [0x1F]) reading).r = .live { buf := [0x1F], n := 0 } := by decide
theorem test_brPeek :
    (after (reqPeek 3) reading).resp.data = some 0x5 ∧ (after (reqPeek 3) reading).resp.avail = some 3 := by decide
theorem test_brPeek_near_the_end :
    (after (reqPeek 8) { reading with r := .live { buf := [0xE5, 0xAB, 0x01], n := 20 } }).resp.avail = some 4 := by
  decide
theorem test_brReadBits :
    (after (reqReadBits 24) reading).resp.data = some 0x01ABE5 ∧
    (after (reqReadBits 24) reading).r = .live { buf := [0xE5, 0xAB, 0x01], n := 24 } := by decide
theorem test_brReadBits_past_the_end : (after (reqReadBits 25) reading).status = .fault .endOfStream := by decide
-- sections 2 and 3
theorem test_ftSelect :
    (after (reqSelect 594213) State.reset).resp.form =
      some (.selected { form := .reg .f7, adj := 524287, width := 24 }) := by decide
theorem test_ftSelect_raw :
    (after (reqSelect 17371430) State.reset).resp.form =
      some (.selected { form := .raw .n3, adj := 16777216, width := 40 }) := by decide
theorem test_ftClassify :
    (after (reqClassify 0xEF) State.reset).resp.form = some (.classified (.reg .f7) 5 19 69926) := by decide
theorem test_ftClassify_control_byte :
    (after (reqClassify 0x9F) State.reset).resp.form = some (.classified (.raw .n4) 8 40 594214) := by decide
-- section 6: Q9, E3, Q9 again, T7
theorem test_codecEncode :
    (after (reqEncode [1, 5, 37, 38]) State.reset).resp.bytesOut = some [0xF6, 0xFE, 0x07, 0x00] := by decide
theorem test_codecEncode_out_of_range :
    (after (reqEncode [5, 37, -1, 2]) State.reset).resp = Response.bare 1 := by decide
theorem test_codecDecode :
    (after (reqDecode [0xF6, 0xFE, 0x07, 0x00] 4) State.reset).resp.valuesOut = some [1, 5, 37, 38] := by decide
theorem test_codecDecode_cut_short :
    (after (reqDecode [0xFB, 0x1F] 2) State.reset).resp = Response.bare 2 := by decide
-- R72

theorem test_reservedA : (after { op := 0xa, args := Operands.zero } writing).status = .fault .illegalOperation := by decide
theorem test_reservedB : (after { op := 0xb, args := Operands.zero } writing).status = .fault .illegalOperation := by decide
theorem test_reservedC : (after { op := 0xc, args := Operands.zero } writing).status = .fault .illegalOperation := by decide
theorem test_reservedD : (after { op := 0xd, args := Operands.zero } writing).status = .fault .illegalOperation := by decide
theorem test_reservedE : (after { op := 0xe, args := Operands.zero } writing).status = .fault .illegalOperation := by decide
theorem test_reservedF : (after { op := 0xf, args := Operands.zero } writing).status = .fault .illegalOperation := by decide
-- V10 and its like: one code word, the value it stands for (95_test_vectors.md 6.1), and the bits it takes

/-- The state after one pass of a decode call. -/
def afterPass (s : State) : State :=
  match callStep s with
  | .next t => t
  | _ => s

/-- Whether the first code word of these bytes is this instruction, and running it gives this value and takes this many
bits. -/
def runs (bytes : List Byte) (i : Instr) (v : U64) (width : Nat) : Bool :=
  decide (decodeTableWord (8 * bytes.length) (Memory.read bytes 0 (8 * bytes.length)) = some i) &&
    decide ((afterPass (calling bytes 2)).d.out = [v]) &&
    decide ((afterPass (calling bytes 2)).r = .live { buf := bytes, n := width })

theorem test_cwF1 :
    (afterPass (calling [0x02] 2)).d.out = [1] ∧ (afterPass (calling [0x02] 2)).r = .live { buf := [0x02], n := 2 } := by
  decide
theorem test_cwF2 :
    (afterPass (calling [0x0D] 2)).d.out = [5] ∧ (afterPass (calling [0x0D] 2)).r = .live { buf := [0x0D], n := 4 } := by
  decide
theorem test_cwF3 : runs [0xFB] (.cwF3 31) 37 8 = true := by decide +kernel
theorem test_cwF4 : runs [0x1F, 0x3E] (.cwF4 62) 100 16 = true := by decide +kernel
theorem test_cwF5 : runs [0x27, 0x2C] (.cwF5 706) 1000 16 = true := by decide +kernel
theorem test_cwF6 : runs [0x3F, 0xFF, 0xFF] (.cwF6 65535) 69925 24 = true := by decide +kernel
theorem test_cwF7 : runs [0x4F, 0xAF, 0x0E] (.cwF7 30074) 100000 24 = true := by decide +kernel
theorem test_cwRawN2 : runs [0x5F, 0x1A, 0x31, 0x06] (.cwRawN2 405786) 1000000 32 = true := by decide +kernel
theorem test_cwRawN3 : runs [0x7F, 0, 0, 0, 1] (.cwRawN3 16777216) 17371430 40 = true := by decide +kernel
theorem test_cwRawN4 : runs [0x9F, 0, 0, 0, 0, 1] (.cwRawN4 4294967296) 4295561510 48 = true := by decide +kernel
theorem test_cwRawN5 : runs [0xBF, 0, 0, 0, 0, 0, 1] (.cwRawN5 1099511627776) 1099512221990 56 = true := by decide +kernel
theorem test_cwRawN6 : runs [0xDF, 0, 0, 0, 0, 0, 0, 1] (.cwRawN6 281474976710656) 281474977304870 64 = true := by decide +kernel
theorem test_cwRawN7 : runs [0xFF, 0xD9, 0xEE, 0xF6, 0xFF, 0xFF, 0xFF, 0xFF, 0xFF] (.cwRawN7 18446744073708957401) 18446744073709551615 72 = true := by decide +kernel
-- X2: one above the largest value
theorem test_cwRawN7_out_of_range :
    (afterPass (calling [0xFF, 0xDA, 0xEE, 0xF6, 0xFF, 0xFF, 0xFF, 0xFF, 0xFF] 1)).status = .fault .range := by decide +kernel
-- the interface of the host
theorem test_withFetchWord_command :
    step (State.reset.withFetchWord 8 0xC) = call { op := 0xC, args := Operands.zero } State.reset := rfl
theorem test_withFetchWord_code_word :
    (after (wordRequest 24 0xFFFFEF) State.reset).resp.valuesOut = some [594213] := by decide +kernel
-- S13
theorem test_zigzag :
    [0, -1, 1, -2].map toUnsigned = [0, 1, 2, 3] ∧ [0, 1, 2, 3].map fromUnsigned = [0, -1, 1, -2] := by decide


/-! ### Witnesses: for each statement, states and operands that meet its hypotheses -/

/-- `s` with these operands in its registers. -/
def withArgs (s : State) (a : Operands) : State := { s with args := a }

/-- The operands VALUE and NBITS. -/
def emitArgs (v : Int) (n : BitVec 7) : Operands := { Operands.zero with value := v, nbits := n }

/-- The writer of `writing` and the reader of `reading`. -/
def aWriter : Writer := { buf := [0x05], pos := 3 }
def aReader : Reader := { buf := [0xE5, 0xAB, 0x01], n := 0 }

/-- A reader with nothing left, in a state. -/
def atEnd : State := { reading with r := .live { buf := [0xE5, 0xAB, 0x01], n := 24 } }

/-- After a reserved code. -/
def faulted : State := after { op := 0xC, args := Operands.zero } writing

theorem witness_EncodedInstructionsDecode :
    (Instr.cwF7 524287).wf = true ∧ portOf (.cwF7 524287) = .stream ∧ (Instr.codecDecode).wf = true := by decide

theorem witness_DecodedInstructionsEncodeBack :
    decode .stream { nbits := 8, word := 0xFB } = .ok (.cwF3 31) ∧
    decode .command { nbits := 4, word := 0x9 } = .ok .codecDecode := by decide

theorem witness_CodeIsPrefixFree : Form.reg .f1 ≠ Form.raw .n7 := by decide

theorem witness_FormRangesPartition : RegForm.index .f7 = RegForm.index .f6 + 1 := by decide

theorem witness_SelectTakesSmallestForm :
    (withArgs State.reset (emitArgs 0 0)).args.value = ((0 : Nat) : Int) ∧ 0 ≤ 594213 ∧
    (withArgs faulted (emitArgs 594213 0)).args.value = ((594213 : Nat) : Int) ∧ 594213 ≤ 594213 := by decide

theorem witness_SelectRawIsMinimal :
    (withArgs State.reset (emitArgs 594214 0)).args.value = ((594214 : Nat) : Int) ∧ 594213 < 594214 ∧
    (withArgs State.reset (emitArgs 18446744073709551615 0)).args.value = ((maxValue : Nat) : Int) ∧
    594213 < maxValue := by decide

theorem witness_SelectOutsideDomainFails :
    ¬ InDomain (withArgs State.reset (emitArgs (-1) 0)).args.value ∧ State.reset.status = .ok ∧
    ¬ InDomain (withArgs faulted (emitArgs 18446744073709551616 0)).args.value ∧
    (withArgs faulted (emitArgs 18446744073709551616 0)).status ≠ .ok := by
  refine ⟨?_, by decide, ?_, by decide⟩ <;> simp [InDomain, withArgs, emitArgs, maxValue]

theorem witness_ClassifyByMatchAndMask :
    (0xFE : BitVec 8) &&& 0x01 = 0x00 ∧ (0xFD : BitVec 8) &&& 0x03 = 0x01 ∧ (0xFB : BitVec 8) &&& 0x07 = 0x03 ∧
    (0xF7 : BitVec 8) &&& 0x0F = 0x07 ∧ (0xEF : BitVec 8) &&& 0x1F = 0x0F := by decide

theorem witness_ClassifyOfFillIsHarmless :
    5 < 8 ∧ Form.prefixBits (classify 0x0F) ≤ 5 ∧ (0xEF : BitVec 8).toNat % 2 ^ 5 = (0x0F : BitVec 8).toNat % 2 ^ 5 ∧
    0 < 8 ∧ 0 < Form.prefixBits (classify 0x00) := by decide

theorem witness_SelectAndClassifyAgree :
    InDomain (withArgs State.reset (emitArgs 37 0)).args.value ∧
    ({ Operands.zero with window := 0xFB } : Operands).window.toNat % 2 ^ Form.prefixBits (.reg .f3) =
      Form.prefixValue (.reg .f3) :=
  ⟨⟨by decide, by decide⟩, by decide⟩

theorem witness_MemReadIsTheSum : 5 + 19 ≤ 8 * ([0xE5, 0xAB, 0x01] : Memory).length := by decide

theorem witness_MemWriteSetsOnlyItsBits :
    5 + 19 ≤ 8 * ([0xE5, 0xAB, 0x01] : Memory).length ∧ 2 < ([0xE5, 0xAB, 0x01] : Memory).length := by decide

theorem witness_EmitAppendsLowBits :
    (withArgs writing (emitArgs 0xABC 64)).status = .ok ∧ (withArgs writing (emitArgs 0xABC 64)).w = .live aWriter ∧
    Writer.wf aWriter = true ∧ (withArgs writing (emitArgs 0xABC 64)).args.nbits.toNat ≤ 64 := by decide

theorem witness_EmitStoresOnlyAtTheEnd :
    (withArgs writing (emitArgs 0xABC 0)).status = .ok ∧ (withArgs writing (emitArgs 0xABC 0)).w = .live aWriter ∧
    Writer.wf aWriter = true ∧ (withArgs writing (emitArgs 0xABC 0)).args.nbits.toNat ≤ 64 ∧
    2 < Writer.nbits aWriter ∧ Writer.nbits aWriter + 0 ≤ 3 := by decide

theorem witness_OverBoundRaises :
    (withArgs writing (emitArgs 0 65)).status = .ok ∧ (withArgs writing (emitArgs 0 65)).w = .live aWriter ∧
    64 < (withArgs writing (emitArgs 0 65)).args.nbits.toNat ∧
    (withArgs reading (emitArgs 0 9)).r = .live aReader ∧ 8 < (withArgs reading (emitArgs 0 9)).args.nbits.toNat ∧
    64 < (withArgs reading (emitArgs 0 127)).args.nbits.toNat ∧ (withArgs reading (emitArgs 0 127)).status = .ok := by
  decide

theorem witness_FinalizeReturnsTheBytes :
    writing.status = .ok ∧ writing.w = .live aWriter ∧ Writer.wf aWriter = true := by decide

theorem witness_EmitSplitsAndJoins :
    writing.status = .ok ∧ writing.w = .live aWriter ∧ 0xFB ≤ maxValue ∧ 3 + 61 ≤ 64 ∧ (reqEmit 0xFB 8).op = 0x1 ∧
    Writer.wf aWriter = true ∧ Writer.bits aWriter = Writer.bits aWriter ∧
    (reqEmit 0xFB 8).args.nbits.toNat ≤ 64 := by decide

theorem witness_WriterIsAppendOnly :
    ∃ (t : State) (c' : Writer), exec .bwEmit (withArgs writing (emitArgs 0xABC 12)) = .next t ∧
      (withArgs writing (emitArgs 0xABC 12)).w = .live aWriter ∧ t.w = .live c' ∧ Writer.wf aWriter = true ∧
      Instr.bwEmit ≠ .bwNew :=
  ⟨_, _, rfl, rfl, rfl, rfl, by decide⟩

theorem witness_PeekShowsTheNextBits :
    (withArgs reading (emitArgs 0 8)).status = .ok ∧ (withArgs reading (emitArgs 0 8)).r = .live aReader ∧
    (withArgs reading (emitArgs 0 8)).args.nbits.toNat ≤ 8 ∧ aReader.n < 8 * aReader.buf.length := by decide

theorem witness_ReadBitsConsumes :
    (withArgs reading (emitArgs 0 24)).status = .ok ∧ (withArgs reading (emitArgs 0 24)).r = .live aReader ∧
    (withArgs reading (emitArgs 0 24)).args.nbits.toNat ≤ 64 ∧
    (withArgs reading (emitArgs 0 24)).args.nbits.toNat ≤ 8 * aReader.buf.length - aReader.n := by decide

theorem witness_EndOfStreamIsRaised :
    (withArgs atEnd (emitArgs 0 8)).status = .ok ∧
    (withArgs atEnd (emitArgs 0 8)).r = .live { buf := [0xE5, 0xAB, 0x01], n := 24 } ∧
    24 = 8 * ([0xE5, 0xAB, 0x01] : List Byte).length ∧ (withArgs atEnd (emitArgs 0 8)).args.nbits.toNat ≤ 8 ∧
    8 * ([0xE5, 0xAB, 0x01] : List Byte).length - 24 < (withArgs atEnd (emitArgs 0 1)).args.nbits.toNat ∧
    (withArgs reading (emitArgs 0 25)).r = .live aReader ∧
    8 * aReader.buf.length - aReader.n < (withArgs reading (emitArgs 0 25)).args.nbits.toNat ∧
    (withArgs reading (emitArgs 0 25)).args.nbits.toNat ≤ 64 := by decide

theorem witness_ReaderMirrorsWriter :
    reading.status = .ok ∧ reading.r = .live aReader ∧ 8 ≤ min 8 (Reader.rem aReader) ∧ Reader.rem aReader ≠ 0 ∧
    4 + 20 ≤ 64 ∧ 4 + 20 ≤ Reader.rem aReader ∧
    ∀ p ∈ [((0x5 : Nat), (3 : Nat)), (0xABC, 12), (maxValue, 64), (1, 0)], p.1 ≤ maxValue ∧ p.2 ≤ 64 := by decide

theorem witness_ReaderIsReadOnly :
    ∃ (t : State) (c' : Reader), exec .brReadBits (withArgs reading (emitArgs 0 3)) = .next t ∧
      (withArgs reading (emitArgs 0 3)).r = .live aReader ∧ t.r = .live c' ∧ Instr.brReadBits ≠ .brNew :=
  ⟨_, _, rfl, rfl, rfl, by decide⟩

/-- The ends of the domain and of every range of 43_codec_encode.md R108. -/
def rangeEnds : List Int :=
  [0, 37, 38, 4389, 4390, 594213, 594214, 17371429, 17371430, 4295561509, 4295561510, 1099512221989, 1099512221990,
   281474977304869, 281474977304870, 72057594038522149, 72057594038522150, 18446744073709551615]

theorem rangeEnds_inDomain : ∀ v ∈ rangeEnds, InDomain v := by
  intro v hv
  simp only [rangeEnds, List.mem_cons, List.not_mem_nil, or_false] at hv
  rcases hv with rfl | rfl | rfl | rfl | rfl | rfl | rfl | rfl | rfl | rfl | rfl | rfl | rfl | rfl | rfl | rfl | rfl | rfl <;>
    exact ⟨by decide, by decide⟩

theorem witness_EncodeConcatenatesCodeWords :
    ∀ v ∈ (withArgs State.reset { Operands.zero with valuesIn := rangeEnds }).args.valuesIn, InDomain v :=
  rangeEnds_inDomain

theorem witness_EncodeOutsideDomainFails :
    ∃ v ∈ (withArgs State.reset { Operands.zero with valuesIn := [5, 37, -1, 2] }).args.valuesIn, ¬ InDomain v :=
  ⟨-1, by decide, fun h => absurd h.1 (by decide)⟩

theorem witness_CallsOfNoValues :
    (withArgs writing Operands.zero).args.valuesIn = [] ∧ (withArgs reading Operands.zero).args.count = 0 := by decide

theorem witness_EncodedLengths :
    (∀ v ∈ rangeEnds, InDomain v) ∧ (0 : Int) ≤ 37 ∧ (38 : Int) ≤ 4389 ∧ (4390 : Int) ≤ 594213 ∧
    (594214 : Int) ≤ 17371429 ∧ (17371430 : Int) ≤ 4295561509 ∧ (4295561510 : Int) ≤ 1099512221989 ∧
    (1099512221990 : Int) ≤ 281474977304869 ∧ (281474977304870 : Int) ≤ 72057594038522149 ∧
    (72057594038522150 : Int) ≤ 18446744073709551615 :=
  ⟨rangeEnds_inDomain, by decide⟩

theorem witness_EncodeEqualsItsExpansion : ∀ v ∈ rangeEnds, InDomain v := rangeEnds_inDomain

/-- The code words of 1, 5, 37 and 38, and a state about to decode them (95_test_vectors.md Q9). -/
def q9Words : List (Form × Nat) := [(.reg .f1, 1), (.reg .f2, 3), (.reg .f3, 31), (.reg .f4, 0)]
def decoding (bytes : List Byte) (count : BitVec 64) : State :=
  withArgs State.reset { Operands.zero with bytesIn := bytes, count := count }

theorem witness_DecodeAnswersItsCodeWords :
    (∀ p ∈ q9Words, p.2 < 2 ^ Form.payloadBits p.1 ∧ Form.base p.1 + p.2 ≤ maxValue) ∧
    q9Words.length = (decoding [0xF6, 0xFE, 0x07, 0x00] 4).args.count.toNat ∧
    (q9Words.flatMap fun p => codeBits p.1 p.2) <+:
      (List.range (8 * (decoding [0xF6, 0xFE, 0x07, 0x00] 4).args.bytesIn.length)).map
        (Memory.bit (decoding [0xF6, 0xFE, 0x07, 0x00] 4).args.bytesIn) := by decide

-- O3: two whole code words, a third wanted, nothing left
theorem witness_DecodeFailsAtTheFirstBadCodeWord_end :
    (∀ p ∈ [(Form.reg .f3, 31), (Form.reg .f3, 31)], p.2 < 2 ^ Form.payloadBits p.1 ∧ Form.base p.1 + p.2 ≤ maxValue) ∧
    2 < (decoding [0xFB, 0xFB] 3).args.count.toNat ∧
    ([(Form.reg .f3, 31), (Form.reg .f3, 31)].flatMap fun p => codeBits p.1 p.2) <+:
      (List.range 16).map (Memory.bit (decoding [0xFB, 0xFB] 3).args.bytesIn) ∧
    8 * (decoding [0xFB, 0xFB] 3).args.bytesIn.length -
      ([(Form.reg .f3, 31), (Form.reg .f3, 31)].flatMap fun p => codeBits p.1 p.2).length = 0 := by decide

-- T7: the second code word cut
theorem witness_DecodeFailsAtTheFirstBadCodeWord_cut :
    1 < (decoding [0xFB, 0x1F] 2).args.count.toNat ∧
    ([(Form.reg .f3, 31)].flatMap fun p => codeBits p.1 p.2) <+:
      (List.range 16).map (Memory.bit (decoding [0xFB, 0x1F] 2).args.bytesIn) ∧
    8 * (decoding [0xFB, 0x1F] 2).args.bytesIn.length -
      ([(Form.reg .f3, 31)].flatMap fun p => codeBits p.1 p.2).length = 8 ∧
    8 < Form.width (classify (BitVec.ofNat 8 (Memory.read (decoding [0xFB, 0x1F] 2).args.bytesIn 8 (min 8 8)))) := by
  decide

-- X2: the raw value one above 2^64 − 1
theorem witness_DecodeFailsAtTheFirstBadCodeWord_range :
    72 ≤ 8 * (decoding [0xFF, 0xDA, 0xEE, 0xF6, 0xFF, 0xFF, 0xFF, 0xFF, 0xFF] 1).args.bytesIn.length ∧
    0xFFFFFFFFFFF6EEDA < 2 ^ 64 ∧ 0xFFFFFFFFFFF6EED9 < 0xFFFFFFFFFFF6EEDA ∧
    Memory.read (decoding [0xFF, 0xDA, 0xEE, 0xF6, 0xFF, 0xFF, 0xFF, 0xFF, 0xFF] 1).args.bytesIn 0 72 =
      0xFF + 0xFFFFFFFFFFF6EEDA * 2 ^ 8 := by decide +kernel

theorem witness_DecodeIgnoresWhatFollows :
    1 < 2 ^ 64 ∧ 1 ≤ 2 ∧
    ∃ (t : State) (vs : List U64), call (reqDecode [0xFB, 0xFB] 2) State.reset = .next t ∧
      t.resp.valuesOut = some vs :=
  ⟨by decide, by decide, _, _, rfl, rfl⟩

theorem witness_DecodeOfEncodeIsIdentity : (∀ v ∈ rangeEnds, InDomain v) ∧ rangeEnds.length < 2 ^ 64 :=
  ⟨rangeEnds_inDomain, by decide⟩

-- O6 and O7: [0, 1] has four padding bits
theorem witness_OverRequestReadsThePadding :
    (∀ v ∈ [(0 : Int), 1], InDomain v) ∧ ([(0 : Int), 1]).length + 3 < 2 ^ 64 ∧
    (4 : Nat) = (8 - (([(0 : Int), 1].map valueWidth).sum % 8)) % 8 ∧ 2 ≤ 4 / 2 ∧ 4 / 2 < 3 := by
  refine ⟨?_, by decide, by decide, by decide, by decide⟩
  intro v hv
  simp only [List.mem_cons, List.not_mem_nil, or_false] at hv
  rcases hv with rfl | rfl <;> exact ⟨by decide, by decide⟩

theorem witness_TruncatedEncodingFails :
    InDomain 38 ∧ ∃ (t : State) (bytes : List Byte), call (reqEncode [38]) State.reset = .next t ∧
      t.resp.bytesOut = some bytes ∧ 1 < bytes.length :=
  ⟨⟨by decide, by decide⟩, _, [0x1F, 0x00], rfl, by decide, by decide⟩

theorem witness_PrimitivesReadOneCodeWord :
    ∀ i, i < Form.width (.reg .f3) →
      State.reset.status = .ok ∧ (calling [0xFB] 1).r = .live { buf := [0xFB], n := 0 } ∧
      31 < 2 ^ Form.payloadBits (.reg .f3) ∧ 0 + Form.width (.reg .f3) ≤ 8 * ([0xFB] : List Byte).length ∧
      Memory.bit [0xFB] (0 + i) = (encodeCodeWord (.reg .f3) 31).word.testBit i := by decide

theorem witness_PassRunsTheCodeWordRead :
    (calling [0xFB] 1).status = .ok ∧ (calling [0xFB] 1).r = .live { buf := [0xFB], n := 0 } ∧
    (calling [0xFB] 1).d.state = .awaitingValue ∧ decodeAt [0xFB] 0 = .ok (.reg .f3, 31) := by decide

/-- Nine bytes, which hold the longest code word. -/
def nine : List Byte := [0, 0, 0, 0, 0, 0, 0, 0, 0]

theorem witness_RegularizedCodeWordsAppendTheirValues :
    (calling nine 1).status = .ok ∧ (calling nine 1).r = .live { buf := nine, n := 0 } ∧
    (calling nine 1).d.state = .awaitingValue ∧
    ∀ p ∈ [(2, 0, 1), (4, 2, 3), (8, 6, 31), (16, 38, 255), (16, 294, 4095), (24, 4390, 65535), (24, 69926, 524287)],
      0 + p.1 ≤ 8 * nine.length ∧ p.2.1 + p.2.2 ≤ maxValue := by decide

theorem witness_RawCodeWordsAppendTheirValues :
    (calling nine 1).status = .ok ∧ (calling nine 1).r = .live { buf := nine, n := 0 } ∧
    (calling nine 1).d.state = .awaitingValue ∧
    ∀ p ∈ [(32, 16777215), (40, 4294967295), (48, 1099511627775), (56, 281474976710655), (64, 72057594037927935),
        (72, 0xFFFFFFFFFFF6EED9)],
      0 + p.1 ≤ 8 * nine.length ∧ 594214 + p.2 ≤ maxValue := by decide

theorem witness_CodeWordsCutShortFail :
    (calling [] 1).status = .ok ∧ (calling [] 1).r = .live { buf := [], n := 0 } ∧
    (calling [] 1).d.state = .awaitingValue ∧ 8 * ([] : List Byte).length ≤ 0 ∧
    ∀ w ∈ [2, 4, 8, 16, 24, 32, 40, 48, 56, 64, 72], 71 < 8 * nine.length ∧ 8 * nine.length < 71 + w := by decide

theorem witness_RawValueBeyond64BitsIsRangeError :
    (calling nine 1).status = .ok ∧ (calling nine 1).r = .live { buf := nine, n := 0 } ∧
    (calling nine 1).d.state = .awaitingValue ∧ 0 + Form.width (.raw .n7) ≤ 8 * nine.length ∧
    0xFFFFFFFFFFF6EEDA < 2 ^ Form.payloadBits (.raw .n7) ∧ 0xFFFFFFFFFFF6EED9 < 0xFFFFFFFFFFF6EEDA := by decide

theorem witness_CodeWordsOutsideACallDoNothing :
    faulted.status ≠ .ok ∧ Slot.isLive (after (reqDecode [] 0) State.reset).r = false ∧ reading.d.state = .done := by
  decide

theorem witness_ReservedCodesRaise :
    Instr.reservedC ∈ [Instr.reservedA, .reservedB, .reservedC, .reservedD, .reservedE, .reservedF] ∧
    writing.w = .live aWriter ∧ reading.r = .live aReader := by decide

theorem witness_UnusableCursorIsRejected :
    faulted.status ≠ .ok ∧ Slot.isLive (after (reqEncode []) State.reset).w = false ∧
    Slot.isLive (after (reqDecode [] 0) State.reset).r = false := by decide

theorem witness_OnlyCursorCreationLeavesAFault :
    ∃ t, exec .bwNew faulted = .next t ∧ faulted.status ≠ .ok ∧ t.status = .ok := ⟨_, rfl, by decide, rfl⟩

theorem witness_ResponsesIgnoreUnspecifiedContents :
    SameUsable State.reset { State.reset with encIdx := 7, free := 3, op := 0x9 } := ⟨rfl, rfl, rfl⟩

theorem witness_StepRunsTheRequest :
    ({ State.reset with inbox := [reqFinalize] } : State).inbox = reqFinalize :: [] ∧
    decode .command { nbits := 4, word := reqFinalize.op.toNat } = .ok .bwFinalize ∧ State.reset.inbox = [] := by decide

theorem witness_StepKeepsGood :
    State.Good { State.reset with inbox := [reqEmit 5 3] } ∧
    ∃ t, step { State.reset with inbox := [reqEmit 5 3] } = .next t :=
  ⟨⟨rfl, fun h => absurd rfl h, by decide, by decide⟩, _, rfl⟩

theorem witness_ZigzagInverse :
    (0 : Int) ≤ 0 ∧ (-1 : Int) < 0 ∧ -9223372036854775808 ≤ (9223372036854775807 : Int) ∧ 0 % 2 = 0 ∧ 1 % 2 = 1 := by
  decide

end Sys2Proof.Tests
end

section
/-! The zigzag mapping (00_scope.md R11, R12): each function's value on its two cases, then the two inverses, for
which the sign of `n` and the parity of `u` choose the same case. -/

namespace Sys2Proof.Machine

open Sys2Proof

theorem toUnsigned_of_nonneg {n : Int} (h : 0 ≤ n) : (toUnsigned n : Int) = n * 2 := by
  rw [toUnsigned, if_pos h]
  omega

theorem toUnsigned_of_neg {n : Int} (h : n < 0) : (toUnsigned n : Int) = (-n - 1) * 2 + 1 := by
  rw [toUnsigned, if_neg (Int.not_le.mpr h)]
  omega

theorem fromUnsigned_of_even {u : Nat} (h : u % 2 = 0) : fromUnsigned u = (u / 2 : Nat) := if_pos h

theorem fromUnsigned_of_odd {u : Nat} (h : u % 2 = 1) : fromUnsigned u = -(u / 2 : Nat) - 1 :=
  if_neg (by omega)

/-- R11: the signed 64-bit range maps into the codec's domain. -/
theorem toUnsigned_le_maxValue {n : Int} (hlo : -9223372036854775808 ≤ n) (hhi : n ≤ 9223372036854775807) :
    toUnsigned n ≤ maxValue := by
  unfold maxValue
  rcases Int.lt_or_le n 0 with hneg | hnonneg
  · have hval := toUnsigned_of_neg hneg
    omega
  · have hval := toUnsigned_of_nonneg hnonneg
    omega

/-- A negative `n` gives an odd number and any other an even one, so R12's parity test recovers the sign. -/
@[simp] theorem fromUnsigned_toUnsigned (n : Int) : fromUnsigned (toUnsigned n) = n := by
  rcases Int.lt_or_le n 0 with hneg | hnonneg
  · have hval := toUnsigned_of_neg hneg
    have hodd : toUnsigned n % 2 = 1 := by omega
    rw [fromUnsigned_of_odd hodd]
    omega
  · have hval := toUnsigned_of_nonneg hnonneg
    have heven : toUnsigned n % 2 = 0 := by omega
    rw [fromUnsigned_of_even heven]
    omega

/-- An odd `u` gives a negative number and an even one does not, so R11's sign test recovers the parity. -/
@[simp] theorem toUnsigned_fromUnsigned (u : Nat) : toUnsigned (fromUnsigned u) = u := by
  rcases Nat.mod_two_eq_zero_or_one u with heven | hodd
  · have hval := fromUnsigned_of_even heven
    have hback := toUnsigned_of_nonneg (n := fromUnsigned u) (by omega)
    omega
  · have hval := fromUnsigned_of_odd hodd
    have hback := toUnsigned_of_neg (n := fromUnsigned u) (by omega)
    omega

/-- Settles O60, from the values of the two functions on their cases and the two inverse laws. -/
theorem zigzagInverse : Obligations.ZigzagInverse :=
  ⟨fun _ => ⟨toUnsigned_of_nonneg, toUnsigned_of_neg⟩,
    fun _ => toUnsigned_le_maxValue,
    by decide, by decide,
    fun _ => ⟨fromUnsigned_of_even, fromUnsigned_of_odd⟩,
    fromUnsigned_toUnsigned, toUnsigned_fromUnsigned⟩

end Sys2Proof.Machine
end

section
/-! The machine's invariant `State.Good` (10_state.md R24, R25; 60_exceptions.md R124, R127, R130, R134): first
which updates of the state keep it, then each meaning, then `step`. -/

namespace Sys2Proof.Machine

open Sys2Proof

/-- A response code the block may show: not MalformedPrefixError's and not the reserved 7 (R124, R127). -/
def ShownCode (c : BitVec 3) : Prop := c ≠ ErrorKind.code .malformedPrefix ∧ c ≠ 7

theorem errorCode_shown {e : ErrorKind} (he : e ≠ .malformedPrefix) : ShownCode (ErrorKind.code e) := by
  cases e with
  | malformedPrefix => exact absurd rfl he
  | range | truncatedInput | overRequest | endOfStream | illegalOperation => exact ⟨by decide, by decide⟩

theorem statusCode_shown {st : Status} (h : st ≠ .fault .malformedPrefix) : ShownCode (Status.code st) := by
  cases st with
  | ok => exact ⟨by decide, by decide⟩
  | fault e => exact errorCode_shown fun he => h (by rw [he])

/-! ### Which updates keep the invariant -/

/-- The invariant reads the cursors, STATUS and the response's code, and nothing else. -/
theorem State.Good.congr {s t : State} (h : s.Good) (hw : t.w = s.w) (hr : t.r = s.r) (hs : t.status = s.status)
    (hc : ShownCode t.resp.code) : t.Good where
  memory := by rw [hw, hr]; exact h.memory
  faultKillsCursors := by rw [hw, hr, hs]; exact h.faultKillsCursors
  statusKind := by rw [hs]; exact h.statusKind
  responseCode := hc

/-- With STATUS OK only the canonical form of the cursors and the response's code are at stake. -/
theorem good_of_ok {s : State} (hs : s.status = .ok) (hm : Memory.wf s.w s.r = true)
    (hc : ShownCode s.resp.code) : s.Good where
  memory := hm
  faultKillsCursors := fun h => absurd hs h
  statusKind := by rw [hs]; simp
  responseCode := hc

/-- `State.answer` writes the code of a STATUS the invariant allows. -/
theorem answer_good {s : State} (h : s.Good) (r : Response) : (State.answer s r).Good :=
  h.congr rfl rfl rfl (statusCode_shown h.statusKind)

/-- An answer given with STATUS OK shows code 0, whatever response stood there before. -/
theorem answer_good_of_ok {s : State} (r : Response) (hs : s.status = .ok) (hm : Memory.wf s.w s.r = true) :
    (State.answer s r).Good :=
  good_of_ok hs hm (statusCode_shown (by simp [hs]))

theorem load_good {s : State} (h : s.Good) (q : Request) (rest : List Request) : (State.load s q rest).Good :=
  h.congr rfl rfl rfl h.responseCode

theorem reject_good {s : State} (h : s.Good) : (reject s).Good :=
  h.congr rfl rfl rfl (errorCode_shown (e := .illegalOperation) (by decide))

/-- Taking an error makes any state good: it kills both cursors (R130). -/
theorem raise_good {e : ErrorKind} (he : e ≠ .malformedPrefix) (s : State) : (raise e s).Good where
  memory := raise_memory_wf e s
  faultKillsCursors := fun _ => ⟨writerAfter_not_live _ _ _, readerAfter_not_live _ _ _⟩
  statusKind := by simpa using he
  responseCode := errorCode_shown he

theorem raiseFromOk_good {s : State} (h : s.Good) {e : ErrorKind} (he : e ≠ .malformedPrefix) :
    (raiseFromOk e s).Good := by
  unfold raiseFromOk
  split
  · exact raise_good he s
  · exact h.congr rfl rfl rfl (errorCode_shown he)

/-! ### The errors the operations raise -/

/-- FT.SELECT fails with RangeError alone (R92, R94). -/
theorem selectForm_error_kind {v : Int} {e : ErrorKind} (h : selectForm v = .error e) : e = .range := by
  rcases selectForm_cases v with ⟨-, hs⟩ | ⟨-, f, adj, hs, -, -⟩
  · rw [hs] at h; cases h; rfl
  · rw [hs] at h; cases h

/-- CODEC.ENCODE fails with RangeError alone (R103). -/
theorem encodeLoop_error_kind {vs : List Int} {w : Writer} {i : Nat} {e : ErrorKind}
    (h : encodeLoop vs w i = .error e) : e = .range := by
  induction vs generalizing w i with
  | nil => cases h
  | cons v vs ih =>
    unfold encodeLoop at h
    split at h
    · exact ih h
    · rename_i e' hs
      cases h
      exact selectForm_error_kind hs

/-- A code word fails with one of the three errors of R128. -/
theorem codeWordPass_error_ne_malformedPrefix {f : Form} {x : Nat} {r : Reader} {d : DecodeRecord} {e : ErrorKind}
    (h : codeWordPass f x r d = .error e) : e ≠ .malformedPrefix := by
  rcases codeWordPass_error.1 h with ⟨-, rfl⟩ | ⟨-, -, rfl⟩ | ⟨-, -, rfl⟩ <;> decide

theorem decodeLoop_error_ne_malformedPrefix {fuel : Nat} {r : Reader} {d : DecodeRecord} {e : ErrorKind}
    (h : decodeLoop fuel r d = .error e) : e ≠ .malformedPrefix := by
  rcases decodeLoop_error_kind h with rfl | rfl | rfl <;> decide

/-! ### Each meaning keeps the invariant -/

theorem execBwNew_keeps_good {s t : State} (hg : s.Good) (h : execBwNew s = .next t) : t.Good := by
  cases h
  exact answer_good_of_ok _ rfl (newWriter_memory_wf hg.memory)

/-- EMIT keeps the canonical form (R24); NBITS above 64 raises (R81). -/
theorem execBwEmit_keeps_good {s t : State} (hg : s.Good) (h : execBwEmit s = .next t) : t.Good := by
  rcases onWriter_cases h with ⟨c, hs, hw, rfl⟩ | ⟨-, rfl⟩
  · split
    · exact raise_good (by decide) s
    · exact answer_good_of_ok _ hs (emit_memory_wf _ _ (hw ▸ hg.memory))
  · exact reject_good hg

theorem execBwFinalize_keeps_good {s t : State} (hg : s.Good) (h : execBwFinalize s = .next t) : t.Good := by
  rcases onWriter_cases h with ⟨c, -, -, rfl⟩ | ⟨-, rfl⟩
  · exact answer_good hg _
  · exact reject_good hg

theorem execBrNew_keeps_good {s t : State} (hg : s.Good) (h : execBrNew s = .next t) : t.Good := by
  cases h
  exact answer_good_of_ok _ rfl (newReader_memory_wf _ hg.memory)

/-- PEEK raises (R85, R89) or answers; it moves no cursor. -/
theorem execBrPeek_keeps_good {s t : State} (hg : s.Good) (h : execBrPeek s = .next t) : t.Good := by
  rcases onReader_cases h with ⟨c, -, -, rfl⟩ | ⟨-, rfl⟩
  · split
    · exact raise_good (by decide) s
    · split
      · exact raise_good (by decide) s
      · exact answer_good hg _
  · exact reject_good hg

/-- READBITS consumes only bits that are there (R25, R87). -/
theorem execBrReadBits_keeps_good {s t : State} (hg : s.Good) (h : execBrReadBits s = .next t) : t.Good := by
  rcases onReader_cases h with ⟨c, hs, hr, rfl⟩ | ⟨-, rfl⟩
  · split
    · exact raise_good (by decide) s
    · split
      · exact raise_good (by decide) s
      · rename_i hrem
        exact answer_good_of_ok _ hs (skip_memory_wf (hr ▸ hg.memory) (Nat.not_lt.1 hrem))
  · exact reject_good hg

theorem execFtSelect_keeps_good {s t : State} (hg : s.Good) (h : execFtSelect s = .next t) : t.Good := by
  unfold execFtSelect at h
  split at h
  · cases h
    exact answer_good hg _
  · rename_i e he
    cases h
    exact raiseFromOk_good hg (by rw [selectForm_error_kind he]; decide)

theorem execFtClassify_keeps_good {s t : State} (hg : s.Good) (h : execFtClassify s = .next t) : t.Good := by
  cases h
  exact answer_good hg _

/-- CODEC.ENCODE discards its own writer, so only the reader's canonical form is left (R104). -/
theorem execCodecEncode_keeps_good {s t : State} (hg : s.Good) (h : execCodecEncode s = .next t) : t.Good := by
  obtain ⟨-, hreader⟩ := memory_wf_iff.1 hg.memory
  unfold execCodecEncode at h
  split at h
  · cases h
    exact answer_good_of_ok _ rfl (memory_wf_iff.2 ⟨nofun, hreader⟩)
  · rename_i e he
    cases h
    exact raise_good (by rw [encodeLoop_error_kind he]; decide) _

/-- CODEC.DECODE discards its own reader, so only the writer's canonical form is left (R115). -/
theorem execCodecDecode_keeps_good {s t : State} (hg : s.Good) (h : execCodecDecode s = .next t) : t.Good := by
  obtain ⟨hwriter, -⟩ := memory_wf_iff.1 hg.memory
  unfold execCodecDecode at h
  split at h
  · cases h
    exact answer_good_of_ok _ rfl (memory_wf_iff.2 ⟨hwriter, nofun⟩)
  · rename_i e he
    cases h
    exact raise_good (decodeLoop_error_ne_malformedPrefix he) _

/-- A code word consumes its width where that many bits are left (R110, R112). -/
theorem codeWord_keeps_good {f : Form} {x : Nat} {s t : State} (hg : s.Good) (h : codeWord f x s = .next t) :
    t.Good := by
  rcases codeWord_cases h with ⟨-, rfl⟩ | ⟨c, hc, hrem, -, rfl⟩ | ⟨c, e, -, he, rfl⟩
  · exact hg
  · obtain ⟨hs, hr, -⟩ := callReader_eq_some.1 hc
    exact good_of_ok hs (skip_memory_wf (hr ▸ hg.memory) hrem) hg.responseCode
  · exact raise_good (codeWordPass_error_ne_malformedPrefix he) s

/-- Every instruction keeps the invariant, the code words of a decode call included. -/
theorem exec_keeps_good {i : Instr} {s t : State} (hg : s.Good) (h : exec i s = .next t) : t.Good := by
  cases i with
  | bwNew => exact execBwNew_keeps_good hg h
  | bwEmit => exact execBwEmit_keeps_good hg h
  | bwFinalize => exact execBwFinalize_keeps_good hg h
  | brNew => exact execBrNew_keeps_good hg h
  | brPeek => exact execBrPeek_keeps_good hg h
  | brReadBits => exact execBrReadBits_keeps_good hg h
  | ftSelect => exact execFtSelect_keeps_good hg h
  | ftClassify => exact execFtClassify_keeps_good hg h
  | codecEncode => exact execCodecEncode_keeps_good hg h
  | codecDecode => exact execCodecDecode_keeps_good hg h
  | reservedA | reservedB | reservedC | reservedD | reservedE | reservedF =>
    cases h
    exact raise_good (by decide) s
  | cwF1 d | cwF2 d | cwF3 d | cwF4 d | cwF5 d | cwF6 d | cwF7 d
  | cwRawN2 d | cwRawN3 d | cwRawN4 d | cwRawN5 d | cwRawN6 d | cwRawN7 d => exact codeWord_keeps_good hg h

/-- All that a step can do: nothing where no request waits, else `exec` of the first request's operation. -/
theorem step_cases {s t : State} (h : step s = .next t) :
    (s.inbox = [] ∧ t = s) ∨
    (∃ q rest, s.inbox = q :: rest ∧ exec (decodeCommand q.op) (State.load s q rest) = .next t) := by
  unfold step at h
  split at h
  · exact .inl ⟨by assumption, by cases h; rfl⟩
  · exact .inr ⟨_, _, by assumption, h⟩

/-- Settles O57: a step loads the request, which keeps the invariant, and runs an instruction, which keeps it. -/
theorem stepKeepsGood : Obligations.StepKeepsGood := by
  intro s t hg h
  rcases step_cases h with ⟨-, rfl⟩ | ⟨q, rest, -, hexec⟩
  · exact hg
  · exact exec_keeps_good (load_good hg q rest) hexec

/-! ### Reset -/

/-- Settles O58: STATUS is OK at reset and both cursors are canonical. -/
theorem resetIsGood : Obligations.ResetIsGood :=
  good_of_ok rfl reset_memory_wf ⟨by decide, by decide⟩

/-- What `BW.NEW` does as the next request, in any state (40_bitwriter.md R75). -/
theorem call_reqBwNew (s : State) :
    call reqBwNew s = .next (State.answer (newWriter (State.load s reqBwNew [])) noResult) := rfl

/-- What `BR.NEW b` does as the next request, in any state (41_bitreader.md R83). -/
theorem call_reqBrNew (b : List Byte) (s : State) :
    call (reqBrNew b) s = .next (State.answer (newReader b (State.load s (reqBrNew b) [])) noResult) := rfl

/-- Settles O59: reset holds R34's values, and the two cursors of R142 that BW.NEW and BR.NEW make are those of
reset, the other fields untouched. -/
theorem resetValues : Obligations.ResetValues :=
  ⟨rfl, rfl, rfl, rfl, rfl, rfl, rfl, rfl, rfl, rfl,
    _, _, call_reqBwNew _, call_reqBrNew [] _, rfl, rfl, rfl, rfl, rfl⟩

end Sys2Proof.Machine
end

section
/-! The FormTable (10_state.md R17 to R20): its rows, and the ranges `shift .. top` of its regularized forms. -/

namespace Sys2Proof.Machine

open Sys2Proof

theorem regForms_complete (k : RegForm) : k ∈ regForms := by
  cases k <;> decide

theorem RegForm.index_injective {j k : RegForm} (h : RegForm.index j = RegForm.index k) : j = k := by
  have key : ∀ j ∈ regForms, ∀ k ∈ regForms, RegForm.index j = RegForm.index k → j = k := by decide
  exact key j (regForms_complete j) k (regForms_complete k) h

/-- A form's range holds as many values as its payload has bit patterns (R16). -/
theorem RegForm.top_add_one (k : RegForm) :
    (RegForm.descriptor k).top + 1 = (RegForm.descriptor k).shift + 2 ^ (RegForm.descriptor k).dataBits := by
  cases k <;> rfl

theorem RegForm.shift_le_top (k : RegForm) : (RegForm.descriptor k).shift ≤ (RegForm.descriptor k).top := by
  have htop := RegForm.top_add_one k
  have hpos := Nat.two_pow_pos (RegForm.descriptor k).dataBits
  omega

theorem RegForm.top_le_maxRegularized (k : RegForm) : (RegForm.descriptor k).top ≤ maxRegularized := by
  cases k <;> decide

/-- No gap: a range starts right after the one before it (R19). -/
theorem RegForm.shift_of_index_succ {j k : RegForm} (h : RegForm.index k = RegForm.index j + 1) :
    (RegForm.descriptor k).shift = (RegForm.descriptor j).top + 1 := by
  have key : ∀ j ∈ regForms, ∀ k ∈ regForms, RegForm.index k = RegForm.index j + 1 →
      (RegForm.descriptor k).shift = (RegForm.descriptor j).top + 1 := by decide
  exact key j (regForms_complete j) k (regForms_complete k) h

/-- No overlap: an earlier range ends below a later one's start (R19). -/
theorem RegForm.top_lt_shift {j k : RegForm} (h : RegForm.index j < RegForm.index k) :
    (RegForm.descriptor j).top < (RegForm.descriptor k).shift := by
  have key : ∀ j ∈ regForms, ∀ k ∈ regForms, RegForm.index j < RegForm.index k →
      (RegForm.descriptor j).top < (RegForm.descriptor k).shift := by decide
  exact key j (regForms_complete j) k (regForms_complete k) h

/-- Whether the form's range `shift .. top` holds the value. -/
def RegForm.Holds (k : RegForm) (v : Nat) : Prop :=
  (RegForm.descriptor k).shift ≤ v ∧ v ≤ (RegForm.descriptor k).top

/-- Two ranges that share a value are one: were one the earlier, it would end below the other's start. -/
theorem RegForm.Holds.unique {j k : RegForm} {v : Nat} (hj : RegForm.Holds j v) (hk : RegForm.Holds k v) : j = k := by
  obtain ⟨hj1, hj2⟩ := hj
  obtain ⟨hk1, hk2⟩ := hk
  refine RegForm.index_injective ?_
  rcases Nat.lt_trichotomy (RegForm.index j) (RegForm.index k) with hlt | heq | hgt
  · have := RegForm.top_lt_shift hlt
    omega
  · exact heq
  · have := RegForm.top_lt_shift hgt
    omega

/-- A value up to MAX_REGULARIZED lies in the range of the form FT.SELECT gives it, which cannot be raw. -/
theorem RegForm.exists_holds {v : Nat} (h : v ≤ maxRegularized) : ∃ k : RegForm, RegForm.Holds k v := by
  rw [maxRegularized_eq] at h
  have hdomain : 594213 ≤ maxValue := by decide
  rcases selectForm_cases (v : Int) with ⟨hbad, -⟩ | ⟨-, f, adj, -, hadj, hv⟩
  · omega
  · cases f with
    | reg k =>
      simp only [Form.base, Form.payloadBits] at hadj hv
      have htop := RegForm.top_add_one k
      exact ⟨k, by omega, by omega⟩
    | raw n =>
      simp only [Form.base, rawOffset_eq] at hv
      omega

/-- Settles O6, from the order of the ranges: no gap between neighbours, no overlap, and every value up to the last
top in one of them. -/
theorem formRangesPartition : Obligations.FormRangesPartition := by
  refine ⟨rfl, fun j k h => ?_, fun v => ⟨fun h => ?_, fun h => ?_⟩⟩
  · have hnext := RegForm.shift_of_index_succ h
    have hle := RegForm.shift_le_top j
    exact ⟨hnext, by omega⟩
  · obtain ⟨k, hk⟩ := RegForm.exists_holds h
    exact ⟨k, hk, fun j hj => RegForm.Holds.unique hj hk⟩
  · obtain ⟨k, ⟨-, hk⟩, -⟩ := h
    exact le_trans hk (RegForm.top_le_maxRegularized k)

/-- Settles O5: the widths, the rows `buildFormTable` makes of them, and the prefixes, are closed terms that evaluate
to R18's entries. -/
theorem formTableRows : Obligations.FormTableRows := ⟨rfl, rfl, rfl⟩

end Sys2Proof.Machine
end

section
/-! The primitives on byte buffers (20_memory.md R40, R41): what reading, writing and appending do bit by bit. -/

namespace Sys2Proof.Machine

open Sys2Proof

/-- A stream bit as the rules write it: bit `a mod 8` of byte `floor(a / 8)` (R13, R36). -/
theorem Memory.bit_toNat (b : Memory) (a : Nat) :
    (Memory.bit b a).toNat = ((Memory.byte b (a / 8)).getD 0).toNat / 2 ^ (a % 8) % 2 := by
  unfold Memory.bit Memory.byte
  cases b[a / 8]? with
  | none => simp
  | some y => exact Nat.toNat_testBit y.toNat (a % 8)

theorem Memory.read_succ (b : Memory) (a n : Nat) :
    Memory.read b a (n + 1) = Memory.read b a n + (Memory.bit b (a + n)).toNat * 2 ^ n := by
  rw [Memory.read_add, Nat.mul_comm]
  rfl

theorem Memory.read_eq_sum (b : Memory) (a n : Nat) :
    Memory.read b a n = ∑ i ∈ Finset.range n, (Memory.bit b (a + i)).toNat * 2 ^ i := by
  induction n with
  | zero => rfl
  | succ n ih => rw [Memory.read_succ, ih, Finset.sum_range_succ]

/-- Settles O14: MemRead is the sum of its stream bits, and each of them is R40's quotient. -/
theorem memReadIsTheSum : Obligations.MemReadIsTheSum := by
  intro b a n _
  simp only [Memory.read_eq_sum, Memory.bit_toNat]

@[simp] theorem Memory.write_length (b : Memory) (a n v : Nat) : (Memory.write b a n v).length = b.length := by
  induction n generalizing b a v with
  | zero => rfl
  | succ n ih => rw [Memory.write, ih, Memory.setBit_length]

/-- MemWrite bit by bit (R41). The first bit written is the one at `a`; the later ones lie above it and leave it. -/
theorem Memory.bit_write {b : Memory} {a n : Nat} (v c : Nat) (h : a + n ≤ 8 * b.length) :
    Memory.bit (Memory.write b a n v) c = if a ≤ c ∧ c < a + n then v.testBit (c - a) else Memory.bit b c := by
  induction n generalizing b a v with
  | zero => rw [if_neg (by omega), Memory.write]
  | succ n ih =>
    rw [Memory.write, ih _ (by rw [Memory.setBit_length]; omega), Memory.bit_setBit _ _ _ _ (by omega)]
    rcases Nat.lt_trichotomy c a with hlt | rfl | hgt
    · rw [if_neg (by omega), if_neg (by omega), if_neg (by omega)]
    · rw [if_neg (by omega), if_pos rfl, if_pos (by omega), Nat.sub_self, Nat.testBit_zero, beq_eq_decide]
    · have hnext : c - a = c - (a + 1) + 1 := by omega
      rw [if_neg (Nat.ne_of_gt hgt), hnext, Nat.testBit_succ]
      exact if_congr (by omega) rfl rfl

@[simp] theorem Memory.append_length (b : Memory) (y : Byte) : (Memory.append b y).length = b.length + 1 :=
  List.length_append

@[simp] theorem Memory.byte_append_length (b : Memory) (y : Byte) : Memory.byte (Memory.append b y) b.length = some y :=
  List.getElem?_concat_length

theorem Memory.byte_append_of_lt {b : Memory} {i : Nat} (y : Byte) (h : i < b.length) :
    Memory.byte (Memory.append b y) i = Memory.byte b i :=
  List.getElem?_append_left h

/-- Settles O15, from the bits after MemWrite and the bytes after Append. -/
theorem memWriteSetsOnlyItsBits : Obligations.MemWriteSetsOnlyItsBits :=
  ⟨fun b a n v h => ⟨Memory.write_length b a n v, fun c => Memory.bit_write v c h⟩,
    fun b y => ⟨Memory.byte_append_length b y, Memory.append_length b y, fun _ => Memory.byte_append_of_lt y⟩⟩

end Sys2Proof.Machine
end

section
/-! What one instruction can do to the two cursors (20_memory.md R41, R45, R46): said once, for every instruction, and
then read off for the writer and for the reader. -/

namespace Sys2Proof.Machine

open Sys2Proof

/-- All that instruction `i` can do to the cursors on the way from `s` to `t`. -/
inductive CursorEffect (i : Instr) (s t : State) : Prop where
  | kept (hw : t.w = s.w) (hr : t.r = s.r)
  /-- An error was raised (60_exceptions.md R130). -/
  | killed (hw : Slot.isLive t.w = false) (hr : Slot.isLive t.r = false)
  | createdWriter (hi : i = .bwNew) (hw : t.w = .live Writer.empty) (hr : t.r = s.r)
  | createdReader (hw : t.w = s.w) (hi : i = .brNew) (hr : t.r = .live (Reader.over s.args.bytesIn))
  /-- Bits were put at the end of the writer's stream (40_bitwriter.md R76). -/
  | emitted (c : Writer) (v n : Nat) (hs : s.w = .live c) (hw : t.w = .live (Writer.emit c v n)) (hr : t.r = s.r)
  /-- Bits that were there were taken from the reader (41_bitreader.md R87, 44_codec_decode.md R110). -/
  | consumed (hw : t.w = s.w) (c : Reader) (n : Nat) (hn : n ≤ Reader.rem c) (hs : s.r = .live c)
      (hr : t.r = .live (Reader.skip c n))
  /-- CODEC.ENCODE ended (43_codec_encode.md R104). -/
  | discardedWriter (hw : t.w = .absent) (hr : t.r = s.r)
  /-- CODEC.DECODE ended (44_codec_decode.md R115). -/
  | discardedReader (hw : t.w = s.w) (hr : t.r = .absent)

/-- The state `u` an error is raised in need not be `s`: a codec call has made its cursor before it fails. -/
theorem raise_cursorEffect (i : Instr) (s u : State) (e : ErrorKind) : CursorEffect i s (raise e u) :=
  .killed (writerAfter_not_live _ _ _) (readerAfter_not_live _ _ _)

theorem execBwEmit_cursorEffect {s t : State} (h : execBwEmit s = .next t) : CursorEffect .bwEmit s t := by
  rcases onWriter_cases h with ⟨c, -, hw, rfl⟩ | ⟨-, rfl⟩
  · split
    · exact raise_cursorEffect _ _ _ _
    · exact .emitted c (emitValue s) (nbitsOperand s) hw rfl rfl
  · exact .kept rfl rfl

theorem execBwFinalize_cursorEffect {s t : State} (h : execBwFinalize s = .next t) :
    CursorEffect .bwFinalize s t := by
  rcases onWriter_cases h with ⟨c, -, -, rfl⟩ | ⟨-, rfl⟩
  · exact .kept rfl rfl
  · exact .kept rfl rfl

theorem execBrPeek_cursorEffect {s t : State} (h : execBrPeek s = .next t) : CursorEffect .brPeek s t := by
  rcases onReader_cases h with ⟨c, -, -, rfl⟩ | ⟨-, rfl⟩
  · split
    · exact raise_cursorEffect _ _ _ _
    · split
      · exact raise_cursorEffect _ _ _ _
      · exact .kept rfl rfl
  · exact .kept rfl rfl

theorem execBrReadBits_cursorEffect {s t : State} (h : execBrReadBits s = .next t) :
    CursorEffect .brReadBits s t := by
  rcases onReader_cases h with ⟨c, -, hr, rfl⟩ | ⟨-, rfl⟩
  · split
    · exact raise_cursorEffect _ _ _ _
    · split
      · exact raise_cursorEffect _ _ _ _
      · rename_i hrem
        exact .consumed rfl c (nbitsOperand s) (Nat.not_lt.1 hrem) hr rfl
  · exact .kept rfl rfl

theorem execFtSelect_cursorEffect {s t : State} (h : execFtSelect s = .next t) : CursorEffect .ftSelect s t := by
  unfold execFtSelect at h
  split at h
  · cases h
    exact .kept rfl rfl
  · cases h
    unfold raiseFromOk
    split
    · exact raise_cursorEffect _ _ _ _
    · exact .kept rfl rfl

theorem execCodecEncode_cursorEffect {s t : State} (h : execCodecEncode s = .next t) :
    CursorEffect .codecEncode s t := by
  unfold execCodecEncode at h
  split at h
  · cases h
    exact .discardedWriter rfl rfl
  · cases h
    exact raise_cursorEffect _ _ _ _

theorem execCodecDecode_cursorEffect {s t : State} (h : execCodecDecode s = .next t) :
    CursorEffect .codecDecode s t := by
  unfold execCodecDecode at h
  split at h
  · cases h
    exact .discardedReader rfl rfl
  · cases h
    exact raise_cursorEffect _ _ _ _

theorem codeWord_cursorEffect {f : Form} {x : Nat} {s t : State} (i : Instr) (h : codeWord f x s = .next t) :
    CursorEffect i s t := by
  rcases codeWord_cases h with ⟨-, rfl⟩ | ⟨c, hc, hrem, -, rfl⟩ | ⟨c, e, -, -, rfl⟩
  · exact .kept rfl rfl
  · obtain ⟨-, hr, -⟩ := callReader_eq_some.1 hc
    exact .consumed rfl c (Form.width f) hrem hr rfl
  · exact raise_cursorEffect _ _ _ _

theorem exec_cursorEffect {i : Instr} {s t : State} (h : exec i s = .next t) : CursorEffect i s t := by
  cases i with
  | bwNew => cases h; exact .createdWriter rfl rfl rfl
  | bwEmit => exact execBwEmit_cursorEffect h
  | bwFinalize => exact execBwFinalize_cursorEffect h
  | brNew => cases h; exact .createdReader rfl rfl rfl
  | brPeek => exact execBrPeek_cursorEffect h
  | brReadBits => exact execBrReadBits_cursorEffect h
  | ftSelect => exact execFtSelect_cursorEffect h
  | ftClassify => cases h; exact .kept rfl rfl
  | codecEncode => exact execCodecEncode_cursorEffect h
  | codecDecode => exact execCodecDecode_cursorEffect h
  | reservedA | reservedB | reservedC | reservedD | reservedE | reservedF =>
    cases h
    exact raise_cursorEffect _ _ _ _
  | cwF1 d | cwF2 d | cwF3 d | cwF4 d | cwF5 d | cwF6 d | cwF7 d
  | cwRawN2 d | cwRawN3 d | cwRawN4 d | cwRawN5 d | cwRawN6 d | cwRawN7 d => exact codeWord_cursorEffect _ h

/-- Settles O21: a writer usable before and after was kept, or had bits put at its end. -/
theorem writerIsAppendOnly : Obligations.WriterIsAppendOnly := by
  intro i s t c c' h hc hc' hwf hnew
  cases exec_cursorEffect h with
  | kept hw | createdReader hw | consumed hw | discardedReader hw =>
    obtain rfl : c = c' := by simpa [hc, hc'] using hw.symm
    exact List.prefix_rfl
  | killed hw => simp [hc', Slot.isLive] at hw
  | createdWriter hi => exact absurd hi hnew
  | emitted c₀ v n hs hw =>
    obtain rfl : c = c₀ := by simpa [hc] using hs
    obtain rfl : c' = Writer.emit c v n := by simpa [hc'] using hw
    rw [Writer.emit_bits hwf]
    exact List.prefix_append _ _
  | discardedWriter hw => simp [hc'] at hw

/-- Settles O28: a reader usable before and after was kept, or had bits taken from its front. -/
theorem readerIsReadOnly : Obligations.ReaderIsReadOnly := by
  intro i s t c c' h hc hc' hnew
  cases exec_cursorEffect h with
  | kept _ hr | createdWriter _ _ hr | emitted _ _ _ _ _ hr | discardedWriter _ hr =>
    obtain rfl : c = c' := by simpa [hc, hc'] using hr.symm
    exact ⟨rfl, le_rfl⟩
  | killed _ hr => simp [hc', Slot.isLive] at hr
  | createdReader _ hi => exact absurd hi hnew
  | consumed _ c₀ n _ hs hr =>
    obtain rfl : c = c₀ := by simpa [hc] using hs
    obtain rfl : c' = Reader.skip c n := by simpa [hc'] using hr
    exact ⟨rfl, Nat.le_add_right _ _⟩
  | discardedReader _ hr => simp [hc'] at hr

end Sys2Proof.Machine
end

section
/-! How a step takes its request (20_memory.md R44, 30_encoding.md R71). -/

namespace Sys2Proof.Machine

open Sys2Proof

/-- The command port decodes every operation code, and to what `step` runs (R71, R72). -/
theorem decode_command (op : BitVec 4) : decode .command { nbits := 4, word := op.toNat } = .ok (decodeCommand op) := by
  have hlt : op.toNat < 16 := op.isLt
  simp [decode, hlt]

/-- An operation carries no operand of its own, so it is always well formed. -/
theorem decodeCommand_wf (op : BitVec 4) : (decodeCommand op).wf = true := by
  revert op
  decide

theorem step_of_inbox_nil {s : State} (h : s.inbox = []) : step s = .next s := by
  rw [step, h]

theorem step_of_inbox_cons {s : State} {q : Request} {rest : List Request} (h : s.inbox = q :: rest) :
    step s = exec (decodeCommand q.op) (State.load s q rest) := by
  rw [step, h]

/-- Settles O55: the decoder's instruction is the one `step` runs, on the state `State.load` gives. -/
theorem stepRunsTheRequest : Obligations.StepRunsTheRequest := by
  refine ⟨fun s q rest i hinbox hdecode => ?_, fun s => step_of_inbox_nil⟩
  obtain rfl : decodeCommand q.op = i := by simpa [decode_command] using hdecode
  exact ⟨decodeCommand_wf q.op, step_of_inbox_cons hinbox⟩

end Sys2Proof.Machine
end

section
/-! The two ports (30_encoding.md R53, R71): an instruction is an operation code or a code word, and at each port the
decoder and the encoder undo one another. -/

namespace Sys2Proof.Machine

open Sys2Proof

/-! ### Operation codes -/

theorem codeWordOf_decodeCommand (op : BitVec 4) : codeWordOf (decodeCommand op) = none := by
  revert op
  decide

theorem commandCode_decodeCommand (op : BitVec 4) : commandCode (decodeCommand op) = op.toNat := by
  revert op
  decide

@[simp] theorem portOf_decodeCommand (op : BitVec 4) : portOf (decodeCommand op) = .command := by
  simp only [portOf, codeWordOf_decodeCommand]

@[simp] theorem encode_decodeCommand (op : BitVec 4) :
    encode (decodeCommand op) = { nbits := 4, word := op.toNat } := by
  simp only [encode, codeWordOf_decodeCommand, commandCode_decodeCommand]

/-- An instruction that is no code word is what its own operation code decodes to (R71, R72). -/
theorem decodeCommand_commandCode {i : Instr} (h : codeWordOf i = none) :
    decodeCommand (BitVec.ofNat 4 (commandCode i)) = i := by
  cases i with
  | bwNew | bwEmit | bwFinalize | brNew | brPeek | brReadBits | ftSelect | ftClassify | codecEncode | codecDecode
  | reservedA | reservedB | reservedC | reservedD | reservedE | reservedF => rfl
  | cwF1 | cwF2 | cwF3 | cwF4 | cwF5 | cwF6 | cwF7
  | cwRawN2 | cwRawN3 | cwRawN4 | cwRawN5 | cwRawN6 | cwRawN7 => cases h

/-- The two kinds of instruction. -/
theorem instr_cases (i : Instr) : (∃ op, i = decodeCommand op) ∨ (∃ f d, i = codeWordInstr f d) := by
  cases h : codeWordOf i with
  | none => exact .inl ⟨_, (decodeCommand_commandCode h).symm⟩
  | some p => exact .inr ⟨p.1, p.2, eq_codeWordInstr h⟩

/-- What the command port reads: the four bits of an operation code, and nothing else (R71). -/
theorem decode_command_eq_ok {c : Code} {i : Instr} :
    decode .command c = .ok i ↔ ∃ op : BitVec 4, c = { nbits := 4, word := op.toNat } ∧ i = decodeCommand op := by
  constructor
  · intro h
    simp only [decode] at h
    split at h
    · rename_i hc
      obtain ⟨hn, hw⟩ := hc
      cases h
      refine ⟨BitVec.ofNat 4 c.word, ?_, rfl⟩
      rw [BitVec.toNat_ofNat, Nat.mod_eq_of_lt hw, ← hn]
    · cases h
  · rintro ⟨op, rfl, rfl⟩
    exact decode_command op

/-! ### Code words -/

@[simp] theorem portOf_codeWordInstr (f : Form) (d : Nat) : portOf (codeWordInstr f d) = .stream := by
  simp only [portOf, codeWordOf_codeWordInstr]

@[simp] theorem encode_codeWordInstr (f : Form) (d : Nat) : encode (codeWordInstr f d) = encodeCodeWord f d := by
  simp only [encode, codeWordOf_codeWordInstr]

/-- What the stream port reads: the code word at the front of the bits (R66, R67). -/
theorem decode_stream_eq_ok {c : Code} {i : Instr} :
    decode .stream c = .ok i ↔ ∃ f d, decodeCodeWord c.nbits c.word = .ok (f, d) ∧ i = codeWordInstr f d := by
  constructor
  · intro h
    simp only [decode] at h
    split at h
    · rename_i f d hd
      cases h
      exact ⟨f, d, hd, rfl⟩
    · cases h
  · rintro ⟨f, d, hd, rfl⟩
    simp only [decode, hd]

/-- A code word is read back from the front of the stream, whatever bits follow it: its width is its own, so those
bits are cut off (R53, R64, R67). -/
theorem decode_stream_encodeCodeWord {f : Form} {d : Nat} (hd : d < 2 ^ Form.payloadBits f) (more rest : Nat) :
    decode .stream
      { nbits := (encodeCodeWord f d).nbits + more,
        word := (encodeCodeWord f d).word + 2 ^ (encodeCodeWord f d).nbits * rest } = .ok (codeWordInstr f d) := by
  refine decode_stream_eq_ok.2 ⟨f, d, decodeCodeWord_of_code f d (Nat.le_add_right _ _) ?_, rfl⟩
  calc ((encodeCodeWord f d).word + 2 ^ (encodeCodeWord f d).nbits * rest) % 2 ^ (encodeCodeWord f d).nbits
      = (encodeCodeWord f d).word % 2 ^ (encodeCodeWord f d).nbits := Nat.add_mul_mod_self_left _ _ _
    _ = (encodeCodeWord f d).word := Nat.mod_eq_of_lt (encodeCodeWord_lt hd)

theorem decode_encodeCodeWord (f : Form) (d : Nat) (hd : d < 2 ^ Form.payloadBits f) :
    decode .stream (encodeCodeWord f d) = .ok (codeWordInstr f d) := by
  simpa using decode_stream_encodeCodeWord hd 0 0

/-! ### The obligations -/

/-- Settles O2, by the two kinds of instruction: all sixteen operation codes decode, and a code word is read back
whatever follows it. -/
theorem encodedInstructionsDecode : Obligations.EncodedInstructionsDecode := by
  intro i hwf
  rcases instr_cases i with ⟨op, rfl⟩ | ⟨f, d, rfl⟩
  · rw [portOf_decodeCommand, encode_decodeCommand]
    exact ⟨decode_command op, nofun⟩
  · have hd : d < 2 ^ Form.payloadBits f := by simpa [wf_codeWordInstr] using hwf
    rw [portOf_codeWordInstr, encode_codeWordInstr]
    exact ⟨decode_encodeCodeWord f d hd, fun _ => decode_stream_encodeCodeWord hd⟩

/-- Settles O3, port by port, from what each port reads. -/
theorem decodedInstructionsEncodeBack : Obligations.DecodedInstructionsEncodeBack := by
  intro p c i h
  cases p with
  | command =>
    obtain ⟨op, rfl, rfl⟩ := decode_command_eq_ok.1 h
    rw [portOf_decodeCommand, encode_decodeCommand]
    exact ⟨decodeCommand_wf op, rfl, le_rfl, (Nat.mod_eq_of_lt op.isLt).symm⟩
  | stream =>
    obtain ⟨f, d, hread, rfl⟩ := decode_stream_eq_ok.1 h
    obtain ⟨hd, hwidth, hbits⟩ := code_of_decodeCodeWord hread
    rw [portOf_codeWordInstr, encode_codeWordInstr, wf_codeWordInstr]
    exact ⟨decide_eq_true hd, rfl, hwidth, hbits.symm⟩

/-- Settles O1: the sixteen codes by evaluation; each word written out in R55 to R62 is the encoder's for its form and
payload, and so decodes to them. -/
theorem writtenWordsDecode : Obligations.WrittenWordsDecode :=
  ⟨by decide,
    decode_encodeCodeWord (.reg .f1) 1 (by decide), decode_encodeCodeWord (.reg .f2) 3 (by decide),
    decode_encodeCodeWord (.reg .f3) 31 (by decide), decode_encodeCodeWord (.reg .f4) 255 (by decide),
    decode_encodeCodeWord (.reg .f5) 4095 (by decide), decode_encodeCodeWord (.reg .f6) 0 (by decide),
    decode_encodeCodeWord (.reg .f7) 524287 (by decide), decode_encodeCodeWord (.raw .n2) 0 (by decide),
    decode_encodeCodeWord (.raw .n3) 0x01000000 (by decide), decode_encodeCodeWord (.raw .n4) 0x0100000000 (by decide),
    decode_encodeCodeWord (.raw .n5) 0x010000000000 (by decide),
    decode_encodeCodeWord (.raw .n6) 0x01000000000000 (by decide),
    decode_encodeCodeWord (.raw .n7) 0x0100000000000000 (by decide)⟩

end Sys2Proof.Machine
end

section
/-! The thirteen patterns of stream bits that tell the forms (30_encoding.md R64). The one fact behind both of R64's
claims is that a pattern stands at the front of a window exactly where FT.CLASSIFY names its form. -/

namespace Sys2Proof.Machine

open Sys2Proof

theorem fieldBits_eq_iff (u v n : Nat) : fieldBits u n = fieldBits v n ↔ u % 2 ^ n = v % 2 ^ n := by
  constructor
  · intro h
    rw [fieldBits_eq_map, fieldBits_eq_map, List.map_inj_left] at h
    refine Nat.eq_of_testBit_eq fun i => ?_
    rw [Nat.testBit_mod_two_pow, Nat.testBit_mod_two_pow]
    by_cases hi : i < n
    · rw [h i (List.mem_range.2 hi)]
    · simp [hi]
  · intro h
    rw [← fieldBits_mod u n n le_rfl, h, fieldBits_mod v n n le_rfl]

theorem fieldBits_prefix {m n : Nat} (v : Nat) (h : m ≤ n) : fieldBits v m <+: fieldBits v n := by
  rw [← Nat.add_sub_of_le h, fieldBits_add]
  exact List.prefix_append _ _

theorem fieldBits_prefix_iff {m n : Nat} (u v : Nat) (h : m ≤ n) :
    fieldBits u m <+: fieldBits v n ↔ u % 2 ^ m = v % 2 ^ m := by
  rw [← fieldBits_eq_iff]
  constructor
  · intro hu
    exact (List.prefix_of_prefix_length_le hu (fieldBits_prefix v h) (by simp [fieldBits_length])).eq_of_length
      (by simp [fieldBits_length])
  · intro hu
    rw [hu]
    exact fieldBits_prefix v h

/-- The bits a code word of the form begins with, in stream order (R64). -/
def Form.pattern (f : Form) : List Bool := fieldBits (Form.prefixValue f) (Form.prefixBits f)

/-- The pattern of a form stands at the front of exactly the windows classified as that form (R64, R96). -/
theorem Form.pattern_prefix_iff (f : Form) (p : BitVec 8) :
    Form.pattern f <+: fieldBits p.toNat 8 ↔ classify p = f := by
  rw [Form.pattern, fieldBits_prefix_iff _ _ (Form.prefixBits_bounds f).2, Nat.mod_eq_of_lt (Form.prefixValue_lt f)]
  constructor
  · intro h
    exact classify_of_low p f h.symm
  · rintro rfl
    exact (classify_low p).symm

/-- Some window of eight bits begins with the pattern: the pattern with zeros above it. -/
theorem Form.exists_pattern_prefix (f : Form) : ∃ p : BitVec 8, Form.pattern f <+: fieldBits p.toNat 8 := by
  have hbits := (Form.prefixBits_bounds f).2
  refine ⟨BitVec.ofNat 8 (Form.prefixValue f), ?_⟩
  rw [BitVec.toNat_ofNat, fieldBits_mod _ _ _ le_rfl]
  exact fieldBits_prefix _ hbits

/-- Did one pattern begin another, a window that begins with the longer would be classified as both forms. -/
theorem Form.eq_of_pattern_prefix {f g : Form} (h : Form.pattern f <+: Form.pattern g) : f = g := by
  obtain ⟨p, hg⟩ := Form.exists_pattern_prefix g
  have hf : classify p = f := (Form.pattern_prefix_iff f p).1 (h.trans hg)
  rw [← hf, (Form.pattern_prefix_iff g p).1 hg]

/-- Settles O4: the two lists by evaluation, and the rest because a window begins with the pattern of the form it is
classified as, and with no other. -/
theorem codeIsPrefixFree : Obligations.CodeIsPrefixFree :=
  ⟨by decide, by decide, fun _ _ hne h => hne (Form.eq_of_pattern_prefix h), fun p =>
    ⟨classify p, (Form.pattern_prefix_iff _ p).2 rfl, fun f hf => ((Form.pattern_prefix_iff f p).1 hf).symm⟩⟩

end Sys2Proof.Machine
end

section
/-! The reserved operation codes (30_encoding.md R72). -/

namespace Sys2Proof.Machine

open Sys2Proof

/-- IllegalOperation leaves the contents of the writer in a cursor that may not be used (60_exceptions.md R126;
log 6). -/
theorem raise_illegalOperation_w {s : State} {c : Writer} (h : s.w = .live c ∨ s.w = .dead c) :
    (raise .illegalOperation s).w = .dead c := by
  rcases h with h | h
  · rw [raise_w, h]; rfl
  · rw [raise_w, h]; rfl

/-- As for the writer (60_exceptions.md R126; log 6). -/
theorem raise_illegalOperation_r {s : State} {c : Reader} (h : s.r = .live c ∨ s.r = .dead c) :
    (raise .illegalOperation s).r = .dead c := by
  rcases h with h | h
  · rw [raise_r, h]; rfl
  · rw [raise_r, h]; rfl

/-- Every reserved code has the one meaning, in a fault state too (R72; log 12). -/
theorem exec_reserved {i : Instr}
    (h : i ∈ [Instr.reservedA, .reservedB, .reservedC, .reservedD, .reservedE, .reservedF]) (s : State) :
    exec i s = .next (raise .illegalOperation s) := by
  simp only [List.mem_cons, List.not_mem_nil, or_false] at h
  rcases h with rfl | rfl | rfl | rfl | rfl | rfl <;> rfl

/-- Settles O50, from the one meaning of the reserved codes and what IllegalOperation leaves of each cursor. -/
theorem reservedCodesRaise : Obligations.ReservedCodesRaise :=
  ⟨by decide, fun s =>
    ⟨fun _ hi => exec_reserved hi s, rfl, fun _ => raise_illegalOperation_w, fun _ => raise_illegalOperation_r⟩⟩

end Sys2Proof.Machine
end

section
/-! What one request does, operation by operation (30_encoding.md R71): the response and the cursors after a `call`
whose operands keep the bounds of R81 and R89 and whose cursor may be used. -/

namespace Sys2Proof.Machine

open Sys2Proof

/-- BW.EMIT on a usable writer with NBITS in bounds (40_bitwriter.md R76). -/
theorem execBwEmit_of_live {s : State} {c : Writer} (hs : s.status = .ok) (hw : s.w = .live c)
    (hn : nbitsOperand s ≤ maxEmitBits) :
    execBwEmit s =
      .next (State.answer { s with w := .live (Writer.emit c (emitValue s) (nbitsOperand s)) } noResult) := by
  rw [execBwEmit, onWriter_live _ hs hw, if_neg (Nat.not_lt.2 hn)]

/-- BR.PEEK on a usable reader with NBITS in bounds and bits left (41_bitreader.md R85). -/
theorem execBrPeek_of_live {s : State} {c : Reader} (hs : s.status = .ok) (hr : s.r = .live c)
    (hn : nbitsOperand s ≤ maxPeekBits) (hrem : Reader.rem c ≠ 0) :
    execBrPeek s =
      .next (State.answer s
        { noResult with
          data := some (BitVec.ofNat 64 (Reader.look c (min (nbitsOperand s) (Reader.rem c))))
          avail := some (BitVec.ofNat 4 (min (nbitsOperand s) (Reader.rem c))) }) := by
  rw [execBrPeek, onReader_live _ hs hr, if_neg (Nat.not_lt.2 hn), if_neg hrem]

/-- BR.READBITS on a usable reader with NBITS in bounds and that many bits left (41_bitreader.md R87). -/
theorem execBrReadBits_of_live {s : State} {c : Reader} (hs : s.status = .ok) (hr : s.r = .live c)
    (hn : nbitsOperand s ≤ maxReadBits) (hrem : nbitsOperand s ≤ Reader.rem c) :
    execBrReadBits s =
      .next (State.answer { s with r := .live (Reader.skip c (nbitsOperand s)) }
        { noResult with data := some (BitVec.ofNat 64 (Reader.look c (nbitsOperand s))) }) := by
  rw [execBrReadBits, onReader_live _ hs hr, if_neg (Nat.not_lt.2 hn), if_neg (Nat.not_lt.2 hrem)]

theorem responses_cons_of_call {q : Request} {s t : State} (qs : List Request) (h : call q s = .next t) :
    responses (q :: qs) s = t.resp :: responses qs t := by
  simp only [responses, h]

/-- The register NBITS holds every width within the bound of 64 (10_state.md R31, 40_bitwriter.md R81). -/
theorem nbits_toNat {n : Nat} (h : n ≤ 64) : (BitVec.ofNat 7 n).toNat = n := by
  rw [BitVec.toNat_ofNat]
  omega

/-- `BW.EMIT v, n` puts the low `n` bits of `v` at the end of the writer's stream (40_bitwriter.md R76). -/
theorem call_reqEmit {s : State} {c : Writer} (v : Nat) {n : Nat} (hs : s.status = .ok) (hw : s.w = .live c)
    (hn : n ≤ 64) :
    call (reqEmit v n) s =
      .next (State.answer { State.load s (reqEmit v n) [] with w := .live (Writer.emit c v n) } noResult) := by
  have hnbits : nbitsOperand (State.load s (reqEmit v n) []) = n := nbits_toNat hn
  have hvalue : emitValue (State.load s (reqEmit v n) []) = v % 2 ^ 64 := by
    show (BitVec.ofInt 64 (v : Int)).toNat = v % 2 ^ 64
    rw [BitVec.ofInt_natCast, BitVec.toNat_ofNat]
  refine (execBwEmit_of_live (s := State.load s (reqEmit v n) []) hs hw (hnbits.trans_le hn)).trans ?_
  rw [hnbits, hvalue, Writer.emit_mod c v n 64 hn]

/-- `BW.FINALIZE` answers the writer's bytes (40_bitwriter.md R78). -/
theorem call_reqFinalize {s : State} {c : Writer} (hs : s.status = .ok) (hw : s.w = .live c) :
    call reqFinalize s = .next (State.answer (State.load s reqFinalize []) { noResult with bytesOut := some c.buf }) :=
  onWriter_live _ hs hw

/-- `BR.PEEK n` answers the next bits, up to `n`, where some are left (41_bitreader.md R85). -/
theorem call_reqPeek {s : State} {c : Reader} {n : Nat} (hs : s.status = .ok) (hr : s.r = .live c) (hn : n ≤ 8)
    (hrem : Reader.rem c ≠ 0) :
    call (reqPeek n) s =
      .next (State.answer (State.load s (reqPeek n) [])
        { noResult with
          data := some (BitVec.ofNat 64 (Reader.look c (min n (Reader.rem c))))
          avail := some (BitVec.ofNat 4 (min n (Reader.rem c))) }) := by
  have hnbits : nbitsOperand (State.load s (reqPeek n) []) = n := nbits_toNat (by omega)
  refine (execBrPeek_of_live (s := State.load s (reqPeek n) []) hs hr (hnbits.trans_le hn) hrem).trans ?_
  rw [hnbits]

/-- `BR.READBITS n` answers the next `n` bits and moves the reader past them, where they are left (41_bitreader.md
R87). -/
theorem call_reqReadBits {s : State} {c : Reader} {n : Nat} (hs : s.status = .ok) (hr : s.r = .live c) (hn : n ≤ 64)
    (hrem : n ≤ Reader.rem c) :
    call (reqReadBits n) s =
      .next (State.answer { State.load s (reqReadBits n) [] with r := .live (Reader.skip c n) }
        { noResult with data := some (BitVec.ofNat 64 (Reader.look c n)) }) := by
  have hnbits : nbitsOperand (State.load s (reqReadBits n) []) = n := nbits_toNat hn
  refine (execBrReadBits_of_live (s := State.load s (reqReadBits n) []) hs hr (hnbits.trans_le hn)
    (hnbits.trans_le hrem)).trans ?_
  rw [hnbits]

/-- `FT.SELECT v` answers the form of a value of the domain, in any state (42_formtable.md R92). -/
theorem call_reqSelect {v : Int} {ev : EncodedValue} (h : selectForm v = .ok ev) (s : State) :
    call (reqSelect v) s =
      .next (State.answer (State.load s (reqSelect v) []) { noResult with form := some (.selected ev) }) := by
  show execFtSelect (State.load s (reqSelect v) []) = _
  have hv : selectForm (selectValue (State.load s (reqSelect v) [])) = .ok ev := h
  simp only [execFtSelect, hv]

/-- `FT.CLASSIFY p` answers the window's form with its numbers, in any state (42_formtable.md R96). -/
theorem call_reqClassify (p : BitVec 8) (s : State) :
    call (reqClassify p) s =
      .next (State.answer (State.load s (reqClassify p) [])
        { noResult with
          form := some (.classified (classify p) (Form.prefixBits (classify p)) (Form.payloadBits (classify p))
            (Form.base (classify p))) }) := rfl

/-- `CODEC.ENCODE vs` answers the bytes of its loop's writer, in any state (43_codec_encode.md R104). -/
theorem call_reqEncode {vs : List Int} {w : Writer} {i : Nat} (h : encodeLoop vs Writer.empty 0 = .ok (w, i))
    (s : State) :
    call (reqEncode vs) s =
      .next (State.answer { newWriter (State.load s (reqEncode vs) []) with w := .absent, encIdx := i }
        { noResult with bytesOut := some w.buf }) := by
  show execCodecEncode (State.load s (reqEncode vs) []) = _
  have hloop : encodeLoop (valuesOperand (State.load s (reqEncode vs) [])) Writer.empty 0 = .ok (w, i) := h
  simp only [execCodecEncode, hloop]

end Sys2Proof.Machine
end

section
/-! CODEC.ENCODE and its expansion (30_encoding.md R74): both run the same EMITs on the same writer. -/

namespace Sys2Proof.Machine

open Sys2Proof

theorem encodeLoop_cons_eq_ok {v : Int} {vs : List Int} {w w' : Writer} {i j : Nat}
    (h : encodeLoop (v :: vs) w i = .ok (w', j)) :
    ∃ ev, selectForm v = .ok ev ∧ encodeLoop vs (emitCodeWord w ev) (i + 1) = .ok (w', j) := by
  simp only [encodeLoop] at h
  split at h
  · rename_i ev hev
    exact ⟨ev, hev, h⟩
  · cases h

/-- The requests for one value: three responses, and the writer is left where `encode_value` leaves it (R74, R102). -/
theorem responses_valueRequests {v : Int} {ev : EncodedValue} (hev : selectForm v = .ok ev) {s : State} {w : Writer}
    (hs : s.status = .ok) (hw : s.w = .live w) :
    ∃ (t : State) (rs : List Response), t.status = .ok ∧ t.w = .live (emitCodeWord w ev) ∧ rs.length = 3 ∧
      ∀ qs, responses (valueRequests v ++ qs) s = rs ++ responses qs t := by
  have hp : Form.prefixBits ev.form ≤ 64 := le_trans (Form.prefixBits_bounds ev.form).2 (by decide)
  have hd : Form.payloadBits ev.form ≤ 64 := (Form.payloadBits_bounds ev.form).2
  obtain ⟨s1, hselect, hs1, hw1⟩ : ∃ t, call (reqSelect v) s = .next t ∧ t.status = .ok ∧ t.w = .live w :=
    ⟨_, call_reqSelect hev s, hs, hw⟩
  obtain ⟨s2, hemit1, hs2, hw2⟩ : ∃ t,
      call (reqEmit (Form.prefixValue ev.form) (Form.prefixBits ev.form)) s1 = .next t ∧ t.status = .ok ∧
        t.w = .live (Writer.emit w (Form.prefixValue ev.form) (Form.prefixBits ev.form)) :=
    ⟨_, call_reqEmit _ hs1 hw1 hp, hs1, rfl⟩
  obtain ⟨s3, hemit2, hs3, hw3⟩ : ∃ t, call (reqEmit ev.adj (Form.payloadBits ev.form)) s2 = .next t ∧
      t.status = .ok ∧ t.w = .live (emitCodeWord w ev) :=
    ⟨_, call_reqEmit _ hs2 hw2 hd, hs2, rfl⟩
  refine ⟨s3, [s1.resp, s2.resp, s3.resp], hs3, hw3, rfl, fun qs => ?_⟩
  simp only [valueRequests, hev, List.cons_append, List.nil_append]
  rw [responses_cons_of_call _ hselect, responses_cons_of_call _ hemit1, responses_cons_of_call _ hemit2]

/-- The requests for all values: three responses each, and the writer is left where the loop of CODEC.ENCODE leaves
it. -/
theorem responses_flatMap_valueRequests {vs : List Int} {w w' : Writer} {i j : Nat}
    (h : encodeLoop vs w i = .ok (w', j)) {s : State} (hs : s.status = .ok) (hw : s.w = .live w) :
    ∃ (t : State) (rs : List Response), t.status = .ok ∧ t.w = .live w' ∧ rs.length = 3 * vs.length ∧
      ∀ qs, responses (vs.flatMap valueRequests ++ qs) s = rs ++ responses qs t := by
  induction vs generalizing w i s with
  | nil =>
    cases h
    exact ⟨s, [], hs, hw, rfl, fun _ => rfl⟩
  | cons v vs ih =>
    obtain ⟨ev, hev, hrest⟩ := encodeLoop_cons_eq_ok h
    obtain ⟨t1, rs1, ht1, hw1, hlen1, hresp1⟩ := responses_valueRequests hev hs hw
    obtain ⟨t, rs, ht, hwt, hlen, hresp⟩ := ih hrest ht1 hw1
    refine ⟨t, rs1 ++ rs, ht, hwt, ?_, fun qs => ?_⟩
    · rw [List.length_append, hlen1, hlen, List.length_cons]
      ring
    · rw [List.flatMap_cons, List.append_assoc, hresp1, hresp, List.append_assoc]

/-- The whole expansion, from any state: its last response is the one of CODEC.ENCODE (R74). -/
theorem responses_encodeProgram {vs : List Int} {w : Writer} {i : Nat}
    (h : encodeLoop vs Writer.empty 0 = .ok (w, i)) (s : State) :
    ∃ rs, rs.length = 3 * vs.length + 1 ∧
      responses (encodeProgram vs) s = rs ++ [{ Response.bare 0 with bytesOut := some w.buf }] := by
  obtain ⟨s1, hnew, hs1, hw1⟩ : ∃ t, call reqBwNew s = .next t ∧ t.status = .ok ∧ t.w = .live Writer.empty :=
    ⟨_, call_reqBwNew s, rfl, rfl⟩
  obtain ⟨t, rs, ht, hwt, hlen, hresp⟩ := responses_flatMap_valueRequests h hs1 hw1
  have hlast : responses [reqFinalize] t = [{ Response.bare 0 with bytesOut := some w.buf }] := by
    rw [responses_cons_of_call _ (call_reqFinalize ht hwt), answer_resp, load_status, ht]
    rfl
  refine ⟨s1.resp :: rs, congrArg (· + 1) hlen, ?_⟩
  rw [encodeProgram, List.cons_append, responses_cons_of_call _ hnew, hresp, hlast, List.cons_append]

/-- Settles O32, from the loop of CODEC.ENCODE, which ends on one writer in the call and in its expansion. -/
theorem encodeEqualsItsExpansion : Obligations.EncodeEqualsItsExpansion := by
  intro s s' vs hvs
  obtain ⟨w, hloop, -, -⟩ := encodeLoop_ok vs Writer.empty 0 rfl hvs
  obtain ⟨rs, hlen, hresp⟩ := responses_encodeProgram hloop s'
  refine ⟨_, w.buf, call_reqEncode hloop s, rfl, ?_, ?_⟩
  · rw [hresp, List.length_append, hlen, List.length_singleton]
  · rw [hresp, List.getLast?_concat]

end Sys2Proof.Machine
end

section
/-! Reading one code word by the primitive operations (30_encoding.md R74, 44_codec_decode.md R110). -/

namespace Sys2Proof.Machine

open Sys2Proof

/-- Whether the code word of form `f` and payload `d` stands at bit `a` of a buffer (R53). -/
def Memory.HoldsCodeWord (b : Memory) (a : Nat) (f : Form) (d : Nat) : Prop :=
  ∀ i, i < Form.width f → Memory.bit b (a + i) = (encodeCodeWord f d).word.testBit i

/-- Bits that stand in a buffer are what MemRead reads there (20_memory.md R40). -/
theorem Memory.read_of_testBit {b : Memory} {a n v : Nat} (hv : v < 2 ^ n)
    (h : ∀ i, i < n → Memory.bit b (a + i) = v.testBit i) : Memory.read b a n = v := by
  refine Nat.eq_of_testBit_eq fun i => ?_
  rw [Memory.testBit_read]
  by_cases hi : i < n
  · simp [hi, h i hi]
  · rw [Nat.testBit_lt_two_pow (lt_of_lt_of_le hv (Nat.pow_le_pow_right (by decide) (Nat.not_lt.1 hi)))]
    simp [hi]

/-- The low bits of what MemRead reads are what it reads of fewer bits (20_memory.md R40). -/
theorem Memory.read_mod (b : Memory) (a : Nat) {m n : Nat} (h : m ≤ n) :
    Memory.read b a n % 2 ^ m = Memory.read b a m := by
  obtain ⟨k, rfl⟩ := Nat.exists_eq_add_of_le h
  rw [Memory.read_add, Nat.add_mul_mod_self_left, Nat.mod_eq_of_lt (Memory.read_lt b a m)]

/-- The two parts of the code word that stands at `a`, each read alone (R53, R67). -/
theorem Memory.HoldsCodeWord.read {b : Memory} {a : Nat} {f : Form} {d : Nat} (h : Memory.HoldsCodeWord b a f d)
    (hd : d < 2 ^ Form.payloadBits f) :
    Memory.read b a (Form.prefixBits f) = Form.prefixValue f ∧
      Memory.read b (a + Form.prefixBits f) (Form.payloadBits f) = d := by
  have hword : Memory.read b a (Form.prefixBits f + Form.payloadBits f) =
      Form.prefixValue f + d * 2 ^ Form.prefixBits f := Memory.read_of_testBit (encodeCodeWord_lt hd) h
  have hlow : Memory.read b a (Form.prefixBits f) = Form.prefixValue f := by
    rw [← Memory.read_mod b a (Nat.le_add_right _ (Form.payloadBits f)), hword, Nat.add_mul_mod_self_right,
      Nat.mod_eq_of_lt (Form.prefixValue_lt f)]
  refine ⟨hlow, ?_⟩
  rw [Memory.read_add, hlow, Nat.mul_comm] at hword
  exact Nat.eq_of_mul_eq_mul_right (Nat.two_pow_pos _) (Nat.add_left_cancel hword)

/-- A peek of up to 8 bits that shows the whole of the form's first bits is classified as that form (41_bitreader.md
R86, 42_formtable.md R96). -/
theorem classify_of_look {c : Reader} {n : Nat} {f : Form} (hn : n ≤ 8) (hp : Form.prefixBits f ≤ n)
    (h : Memory.read c.buf c.n (Form.prefixBits f) = Form.prefixValue f) :
    classify ((BitVec.ofNat 64 (Reader.look c n)).setWidth 8) = f := by
  have hlt : Reader.look c n < 2 ^ n := Memory.read_lt _ _ _
  have hle : 2 ^ n ≤ 2 ^ 8 := Nat.pow_le_pow_right (by decide) hn
  refine classify_of_low _ f ?_
  rw [BitVec.toNat_setWidth, BitVec.toNat_ofNat, Nat.mod_eq_of_lt (by omega : Reader.look c n < 2 ^ 64),
    Nat.mod_eq_of_lt (by omega : Reader.look c n < 2 ^ 8), Reader.look, Memory.read_mod _ _ hp, h]

/-- Settles O42: the four calls one after another. The peek shows the form's first bits, since the whole code word is
left; the two reads take its two parts. -/
theorem primitivesReadOneCodeWord : Obligations.PrimitivesReadOneCodeWord := by
  intro s c f d hs hr hd hroom hbits
  obtain ⟨hlow, hpayload⟩ := Memory.HoldsCodeWord.read hbits hd
  obtain ⟨hp1, hp8⟩ := Form.prefixBits_bounds f
  have hd64 := (Form.payloadBits_bounds f).2
  have hwidth : Form.width f = Form.prefixBits f + Form.payloadBits f := rfl
  have hrem : Form.width f ≤ Reader.rem c := by unfold Reader.rem; omega
  have hrem2 : Form.payloadBits f ≤ Reader.rem (Reader.skip c (Form.prefixBits f)) := by
    simp only [Reader.rem, Reader.skip]
    omega
  have hform : classify ((BitVec.ofNat 64 (Reader.look c (min 8 (Reader.rem c)))).setWidth 8) = f :=
    classify_of_look (min_le_left _ _) (le_min hp8 (by omega)) hlow
  refine ⟨_, _, _, _, _, call_reqPeek hs hr le_rfl (by omega), rfl, call_reqClassify _ _, ?_,
    call_reqReadBits hs hr (by omega) (by omega), call_reqReadBits hs rfl hd64 hrem2, ?_, ?_⟩
  · rw [answer_resp, hform]
  · exact congrArg (fun x => some (BitVec.ofNat 64 x)) hpayload
  · rw [answer_r, hwidth, ← Nat.add_assoc]
    rfl

end Sys2Proof.Machine
end

section
/-! The BitWriter operations (40_bitwriter.md R75 to R78) and NBITS beyond its bound (R81, 41_bitreader.md R89). -/

namespace Sys2Proof.Machine

open Sys2Proof

/-! ### NBITS beyond the bound -/

theorem execBwEmit_of_overBound {s : State} {c : Writer} (hs : s.status = .ok) (hw : s.w = .live c)
    (hn : maxEmitBits < nbitsOperand s) : execBwEmit s = .next (raise .illegalOperation s) := by
  rw [execBwEmit, onWriter_live _ hs hw, if_pos hn]

/-- The bound is tested before the bits that are left (60_exceptions.md R129). -/
theorem execBrPeek_of_overBound {s : State} {c : Reader} (hs : s.status = .ok) (hr : s.r = .live c)
    (hn : maxPeekBits < nbitsOperand s) : execBrPeek s = .next (raise .illegalOperation s) := by
  rw [execBrPeek, onReader_live _ hs hr, if_pos hn]

/-- As for PEEK (R129). -/
theorem execBrReadBits_of_overBound {s : State} {c : Reader} (hs : s.status = .ok) (hr : s.r = .live c)
    (hn : maxReadBits < nbitsOperand s) : execBrReadBits s = .next (raise .illegalOperation s) := by
  rw [execBrReadBits, onReader_live _ hs hr, if_pos hn]

/-- Settles O26, from the three operations beyond their bound and what IllegalOperation leaves of each cursor. -/
theorem overBoundRaises : Obligations.OverBoundRaises :=
  ⟨fun _ _ hs hw hn => ⟨execBwEmit_of_overBound hs hw hn, raise_illegalOperation_w (.inl hw)⟩,
    fun _ _ hs hr =>
      ⟨execBrPeek_of_overBound hs hr, execBrReadBits_of_overBound hs hr, raise_illegalOperation_r (.inl hr)⟩⟩

/-! ### BW.NEW and BW.FINALIZE -/

/-- With STATUS OK `State.answer` changes the response alone, and its code is 0 (60_exceptions.md R127). -/
theorem answer_of_ok {s : State} (hs : s.status = .ok) (r : Response) :
    State.answer s r = { s with resp := { r with code := 0 } } := by
  rw [State.answer, hs]
  rfl

/-- BW.FINALIZE on a usable writer (R78). -/
theorem execBwFinalize_of_live {s : State} {c : Writer} (hs : s.status = .ok) (hw : s.w = .live c) :
    execBwFinalize s = .next { s with resp := { Response.bare 0 with bytesOut := some c.buf } } := by
  rw [execBwFinalize, onWriter_live _ hs hw, answer_of_ok hs]
  rfl

/-- Settles O16: BW.NEW is `newWriter`, which asks nothing of the state it meets, and its writer holds no byte. -/
theorem newWriterIsEmpty : Obligations.NewWriterIsEmpty :=
  ⟨rfl, fun s => ⟨_, rfl, rfl,
    execBwFinalize_of_live (s := State.answer (newWriter s) noResult) (c := Writer.empty) rfl rfl⟩⟩

/-- Settles O19: the bytes are the writer's, and a canonical writer has as many as its bits need. -/
theorem finalizeReturnsTheBytes : Obligations.FinalizeReturnsTheBytes :=
  ⟨rfl, fun _ _ hs hw => ⟨execBwFinalize_of_live hs hw, Writer.length_of_wf⟩⟩

/-! ### BW.EMIT: the bits it appends -/

/-- Reducing an integer to `n` bits keeps its binary digits below `n`: what is taken off is an even multiple of each
`2 ^ i`. -/
theorem emod_two_pow_ediv_emod_two (x : Int) {i n : Nat} (hi : i < n) : x % 2 ^ n / 2 ^ i % 2 = x / 2 ^ i % 2 := by
  obtain ⟨k, rfl⟩ := Nat.exists_eq_add_of_lt hi
  calc x % 2 ^ (i + k + 1) / 2 ^ i % 2
      = (x % 2 ^ (i + k + 1) / 2 ^ i + 2 * (2 ^ k * (x / 2 ^ (i + k + 1)))) % 2 :=
        (Int.add_mul_emod_self_left _ _ _).symm
    _ = (x % 2 ^ (i + k + 1) + 2 ^ i * (2 * (2 ^ k * (x / 2 ^ (i + k + 1))))) / 2 ^ i % 2 := by
        rw [Int.add_mul_ediv_left _ _ (by positivity)]
    _ = (x % 2 ^ (i + k + 1) + 2 ^ (i + k + 1) * (x / 2 ^ (i + k + 1))) / 2 ^ i % 2 := by
        congr 3
        ring
    _ = x / 2 ^ i % 2 := by rw [Int.emod_add_mul_ediv]

/-- The bits of VALUE's register are the binary digits of the integer, for a negative one in two's complement (R76;
log 4). -/
theorem testBit_emitValue (s : State) {i : Nat} (hi : i < 64) :
    (emitValue s).testBit i = decide (s.args.value / 2 ^ i % 2 = 1) := by
  have hcast : (emitValue s : Int) = s.args.value % 2 ^ 64 := by
    rw [emitValue, BitVec.toNat_ofInt, Int.toNat_of_nonneg (Int.emod_nonneg _ (by decide))]
    rfl
  rw [Nat.testBit_eq_decide_div_mod_eq, ← emod_two_pow_ediv_emod_two s.args.value hi, ← hcast]
  exact decide_eq_decide.2 (by norm_cast)

theorem fieldBits_emitValue (s : State) {n : Nat} (hn : n ≤ 64) :
    fieldBits (emitValue s) n = (List.range n).map fun i => decide (s.args.value / 2 ^ i % 2 = 1) := by
  rw [fieldBits_eq_map]
  exact List.map_congr_left fun i hi => testBit_emitValue s (lt_of_lt_of_le (List.mem_range.1 hi) hn)

/-- Settles O17: EMIT puts the low bits of VALUE's register at the end of a canonical writer, and they are VALUE's own
binary digits. -/
theorem emitAppendsLowBits : Obligations.EmitAppendsLowBits := by
  intro s c hs hw hwf hn
  refine ⟨Writer.emit c (emitValue s) s.args.nbits.toNat, ?_, Writer.emit_wf hwf _ _, ?_⟩
  · rw [exec, execBwEmit_of_live hs hw hn, answer_of_ok]
    · rfl
    · exact hs
  · rw [Writer.emit_bits hwf, fieldBits_emitValue s hn]

/-! ### BW.EMIT: where it stores -/

/-- A byte that exists is known by its eight bits (20_memory.md R36). -/
theorem Memory.byte_congr {b c : Memory} {i : Nat} (hb : i < b.length) (hc : i < c.length)
    (h : ∀ j < 8, Memory.bit b (8 * i + j) = Memory.bit c (8 * i + j)) : Memory.byte b i = Memory.byte c i := by
  unfold Memory.byte
  rw [List.getElem?_eq_getElem hb, List.getElem?_eq_getElem hc]
  refine congrArg some (BitVec.eq_of_getLsbD_eq fun j hj => ?_)
  have hdiv : (8 * i + j) / 8 = i := by omega
  have hmod : (8 * i + j) % 8 = j := by omega
  simpa [Memory.bit, hdiv, hmod, hb, hc] using h j hj

/-- Settles O18. EMIT keeps every bit below `nbits(W)`, hence every byte wholly below it; the writer it leaves is
canonical, which gives the length and the zeros above. -/
theorem emitStoresOnlyAtTheEnd : Obligations.EmitStoresOnlyAtTheEnd := by
  intro s c hs hw hwf hn
  obtain ⟨hwf', hnbits, hbit⟩ := Writer.emit_spec hwf (emitValue s) s.args.nbits.toNat
  have hlen := Writer.length_of_wf hwf'
  have hle := Writer.nbits_le hwf
  have hle' := Writer.nbits_le hwf'
  rw [hnbits] at hlen hle'
  have hkeeps : ∀ a, a < Writer.nbits c →
      Memory.bit (Writer.emit c (emitValue s) s.args.nbits.toNat).buf a = Memory.bit c.buf a :=
    fun a ha => by rw [hbit a, if_pos ha]
  refine ⟨_, Writer.emit c (emitValue s) s.args.nbits.toNat, execBwEmit_of_live hs hw hn, rfl, hlen,
    fun i hi => ?_, hkeeps, fun a ha => ?_⟩
  · exact Memory.byte_congr (by omega) (by omega) fun j hj => hkeeps _ (by omega)
  · exact Memory.bit_lt_of_wf hwf' (hnbits.trans_le ha)

/-! ### BW.EMIT: splitting and joining -/

theorem Writer.emit_low (w : Writer) (v n : Nat) : Writer.emit w (low v n) n = Writer.emit w v n :=
  Writer.emit_mod w v n n le_rfl

/-- The first part of a split EMIT may be cut to its own bits (R77). -/
theorem Writer.emit_split (w : Writer) (v m n : Nat) :
    Writer.emit (Writer.emit w (low v m) m) (v / 2 ^ m) n = Writer.emit w v (m + n) := by
  rw [Writer.emit_low, Writer.emit_add]

/-- Two EMITs are one of their two fields put side by side (R77). -/
theorem Writer.emit_join (w : Writer) (a b m n : Nat) :
    Writer.emit w (low a m + low b n * 2 ^ m) (m + n) = Writer.emit (Writer.emit w a m) b n := by
  have hlt : low a m < 2 ^ m := Nat.mod_lt _ (Nat.two_pow_pos m)
  have hlow : low (low a m + low b n * 2 ^ m) m = low a m := by
    rw [low, Nat.add_mul_mod_self_right, Nat.mod_eq_of_lt hlt]
  have hhigh : (low a m + low b n * 2 ^ m) / 2 ^ m = low b n := by
    rw [Nat.add_mul_div_right _ _ (Nat.two_pow_pos m), Nat.div_eq_of_lt hlt, Nat.zero_add]
  rw [← Writer.emit_split, hlow, hhigh, Writer.emit_low, Writer.emit_low]

/-- One EMIT request, seen by the writer and STATUS alone. -/
theorem call_reqEmit_w {s : State} {c : Writer} (v : Nat) {n : Nat} (hs : s.status = .ok) (hw : s.w = .live c)
    (hn : n ≤ 64) :
    ∃ t, call (reqEmit v n) s = .next t ∧ t.status = .ok ∧ t.w = .live (Writer.emit c v n) :=
  ⟨_, call_reqEmit v hs hw hn, hs, rfl⟩

/-- Two EMIT requests, one after the other. -/
theorem call_reqEmit_reqEmit_w {s : State} {c : Writer} (a b : Nat) {m n : Nat} (hs : s.status = .ok)
    (hw : s.w = .live c) (hm : m ≤ 64) (hn : n ≤ 64) :
    ∃ t u, call (reqEmit a m) s = .next t ∧ call (reqEmit b n) t = .next u ∧ u.status = .ok ∧
      u.w = .live (Writer.emit (Writer.emit c a m) b n) := by
  obtain ⟨t, hcall, hst, hwt⟩ := call_reqEmit_w a hs hw hm
  obtain ⟨u, hcall', hsu, hwu⟩ := call_reqEmit_w b hst hwt hn
  exact ⟨t, u, hcall, hcall', hsu, hwu⟩

/-- A request runs its operation on the state that holds its operands (20_memory.md R44). -/
theorem call_eq_exec (q : Request) (s : State) : call q s = exec (decodeCommand q.op) (State.load s q []) := rfl

/-- What an EMIT request answers, and the writer it leaves within the bound, depend on the state by its writer alone. -/
theorem call_emit_congr {s s' : State} {c : Writer} {q : Request} (hq : q.op = 0x1) (hs : s.status = .ok)
    (hs' : s'.status = .ok) (hw : s.w = .live c) (hw' : s'.w = .live c) :
    ∃ t t', call q s = .next t ∧ call q s' = .next t' ∧ t.resp = t'.resp ∧
      (q.args.nbits.toNat ≤ 64 → t.w = t'.w) := by
  have hcall : ∀ u, call q u = execBwEmit (State.load u q []) := fun u => by
    rw [call_eq_exec, hq]
    rfl
  rw [hcall, hcall]
  by_cases hn : q.args.nbits.toNat ≤ 64
  · refine ⟨_, _, execBwEmit_of_live (s := State.load s q []) hs hw hn,
      execBwEmit_of_live (s := State.load s' q []) hs' hw' hn, ?_, fun _ => rfl⟩
    simp [hs, hs']
  · have hover := Nat.not_le.1 hn
    exact ⟨_, _, execBwEmit_of_overBound (s := State.load s q []) hs hw hover,
      execBwEmit_of_overBound (s := State.load s' q []) hs' hw' hover, rfl, fun h => absurd h hn⟩

/-- Settles O20: splitting and joining hold of `Writer.emit` on any writer; two canonical writers with the same bits
are one writer. -/
theorem emitSplitsAndJoins : Obligations.EmitSplitsAndJoins := by
  refine ⟨?split, ?join, ?bits⟩
  case split =>
    intro s c v n1 n2 hs hw _ hn
    obtain ⟨t1, hcall1, hs1, hw1⟩ := call_reqEmit_w v hs hw hn
    obtain ⟨t2, t3, hcall2, hcall3, hs3, hw3⟩ :=
      call_reqEmit_reqEmit_w (low v n1) (v / 2 ^ n1) hs hw (m := n1) (n := n2) (by omega) (by omega)
    exact ⟨t1, t2, t3, hcall1, hcall2, hcall3, by rw [hw1, hw3, Writer.emit_split], by rw [hs1, hs3]⟩
  case join =>
    intro s c a b n1 n2 hs hw _ _ hn
    obtain ⟨t1, t2, hcall1, hcall2, hs2, hw2⟩ :=
      call_reqEmit_reqEmit_w a b hs hw (m := n1) (n := n2) (by omega) (by omega)
    obtain ⟨t3, hcall3, hs3, hw3⟩ := call_reqEmit_w (low a n1 + low b n2 * 2 ^ n1) hs hw hn
    exact ⟨t1, t2, t3, hcall1, hcall2, hcall3, by rw [hw2, hw3, Writer.emit_join], by rw [hs2, hs3]⟩
  case bits =>
    intro s s' c c' q hq hs hs' hw hw' hwf hwf' hbits
    obtain rfl := Writer.ext_of_bits hwf hwf' hbits
    exact call_emit_congr hq hs hs' hw hw'

end Sys2Proof.Machine
end

section
/-! The BitReader operations (41_bitreader.md R83 to R88). -/

namespace Sys2Proof.Machine

open Sys2Proof

/-! ### BR.NEW -/

/-- Every bit of a fresh reader is left (R84). -/
theorem Reader.rem_over (b : List Byte) : Reader.rem (Reader.over b) = 8 * b.length := rfl

/-- BR.NEW asks nothing of the state it meets (R83). -/
theorem execBrNew_eq (s : State) :
    execBrNew s =
      .next { s with r := .live (Reader.over s.args.bytesIn), status := .ok, resp := Response.bare 0 } := rfl

/-- Settles O22: BR.NEW puts a fresh reader over the bytes in place, and all of its bits are left. -/
theorem newReaderHoldsTheBytes : Obligations.NewReaderHoldsTheBytes :=
  ⟨rfl, fun s => ⟨execBrNew_eq s, Reader.rem_over s.args.bytesIn⟩⟩

/-! ### BR.PEEK and BR.READBITS: the bits they answer -/

/-- Settles O23: the data is what the reader looks at over the bits it has, whose bits are the stream's. -/
theorem peekShowsTheNextBits : Obligations.PeekShowsTheNextBits := by
  intro s c hs hr hn hleft
  have hrem : Reader.rem c ≠ 0 := Nat.sub_ne_zero_of_lt hleft
  have hmin : min s.args.nbits.toNat (Reader.rem c) ≤ 64 := by omega
  refine ⟨BitVec.ofNat 64 (Reader.look c (min s.args.nbits.toNat (Reader.rem c))), ?_,
    fun i => Reader.look_getLsbD c _ i hmin⟩
  rw [exec, execBrPeek_of_live hs hr hn hrem, answer_of_ok hs]
  rfl

/-- Settles O24: the data is what the reader looks at before it is moved past those bits. -/
theorem readBitsConsumes : Obligations.ReadBitsConsumes := by
  intro s c hs hr hn hrem
  refine ⟨BitVec.ofNat 64 (Reader.look c s.args.nbits.toNat), ?_, fun i => Reader.look_getLsbD c _ i hn⟩
  rw [exec, execBrReadBits_of_live hs hr hn hrem, answer_of_ok]
  · rfl
  · exact hs

/-! ### The end of the stream -/

/-- BR.PEEK with NBITS in bounds and no bit left (R85). -/
theorem execBrPeek_of_atEnd {s : State} {c : Reader} (hs : s.status = .ok) (hr : s.r = .live c)
    (hn : nbitsOperand s ≤ maxPeekBits) (hrem : Reader.rem c = 0) :
    execBrPeek s = .next (raise .endOfStream s) := by
  rw [execBrPeek, onReader_live _ hs hr, if_neg (Nat.not_lt.2 hn), if_pos hrem]

/-- BR.READBITS with NBITS in bounds and fewer bits left (R87). -/
theorem execBrReadBits_of_short {s : State} {c : Reader} (hs : s.status = .ok) (hr : s.r = .live c)
    (hn : nbitsOperand s ≤ maxReadBits) (hrem : Reader.rem c < nbitsOperand s) :
    execBrReadBits s = .next (raise .endOfStream s) := by
  rw [execBrReadBits, onReader_live _ hs hr, if_neg (Nat.not_lt.2 hn), if_pos hrem]

/-- EndOfStream keeps the buffer of a reader within its bound, and its position goes no further than the end (R88;
93_implementation_defined.md U8; log 7). -/
theorem raise_endOfStream_r {s : State} {c : Reader} (hr : s.r = .live c) (hwf : c.n ≤ 8 * c.buf.length) :
    ∃ k, c.n ≤ k ∧ k ≤ 8 * c.buf.length ∧ (raise .endOfStream s).r = .dead { buf := c.buf, n := k } := by
  have hfree : Config.freeReaderPos s.free % (Reader.rem c + 1) ≤ Reader.rem c :=
    Nat.le_of_lt_succ (Nat.mod_lt _ (Nat.succ_pos _))
  have hend : c.n + Reader.rem c = 8 * c.buf.length := Nat.add_sub_cancel' hwf
  refine ⟨c.n + Config.freeReaderPos s.free % (Reader.rem c + 1), by omega, by omega, ?_⟩
  rw [raise_r, hr]
  rfl

/-- Settles O25, from the two operations short of bits and what EndOfStream leaves of the reader. -/
theorem endOfStreamIsRaised : Obligations.EndOfStreamIsRaised :=
  fun _ _ hs hr hwf =>
    ⟨fun hend hn => execBrPeek_of_atEnd hs hr hn (Nat.sub_eq_zero_of_le hend.ge),
      fun hshort hn => execBrReadBits_of_short hs hr hn hshort,
      raise_endOfStream_r hr hwf⟩

end Sys2Proof.Machine
end

section
/-! The reader mirrors the writer (41_bitreader.md R90). The writer of a list of fields only grows, so each field is
read where EMIT put it, in the buffer that all of them leave. -/

namespace Sys2Proof.Machine

open Sys2Proof

/-! ### Fields in a writer -/

/-- The writer after an EMIT for each field, a value and its width. -/
def Writer.emitFields (w : Writer) : List (Nat × Nat) → Writer
  | [] => w
  | p :: fields => Writer.emitFields (Writer.emit w p.1 p.2) fields

/-- What EMIT put at the end of a canonical writer's stream is what MemRead reads there (R40, R76). -/
theorem Writer.read_emit {w : Writer} (h : Writer.wf w = true) (v n : Nat) :
    Memory.read (Writer.emit w v n).buf (Writer.nbits w) n = low v n := by
  obtain ⟨-, -, hbit⟩ := Writer.emit_spec h v n
  refine Memory.read_of_testBit (Nat.mod_lt _ (Nat.two_pow_pos n)) fun i hi => ?_
  rw [hbit, if_neg (by omega), Nat.add_sub_cancel_left, low, Nat.testBit_mod_two_pow]
  simp [hi]

/-- Emitting fields keeps the writer canonical and every bit it already holds (20_memory.md R45). -/
theorem Writer.emitFields_spec {w : Writer} (h : Writer.wf w = true) (fields : List (Nat × Nat)) :
    Writer.wf (Writer.emitFields w fields) = true ∧ Writer.nbits w ≤ Writer.nbits (Writer.emitFields w fields) ∧
      ∀ a, a < Writer.nbits w → Memory.bit (Writer.emitFields w fields).buf a = Memory.bit w.buf a := by
  induction fields generalizing w with
  | nil => exact ⟨h, le_rfl, fun _ _ => rfl⟩
  | cons p fields ih =>
    obtain ⟨hwf, hnbits, hbit⟩ := Writer.emit_spec h p.1 p.2
    obtain ⟨hwf', hle, hkeeps⟩ := ih hwf
    refine ⟨hwf', by rw [Writer.emitFields]; omega, fun a ha => ?_⟩
    rw [Writer.emitFields, hkeeps a (by omega), hbit, if_pos ha]

/-- The first field emitted is still read at its place after all the others. -/
theorem Writer.read_emitFields_cons {w : Writer} (h : Writer.wf w = true) (p : Nat × Nat)
    (fields : List (Nat × Nat)) :
    Memory.read (Writer.emitFields w (p :: fields)).buf (Writer.nbits w) p.2 = low p.1 p.2 := by
  obtain ⟨hwf, hnbits, -⟩ := Writer.emit_spec h p.1 p.2
  obtain ⟨-, -, hkeeps⟩ := Writer.emitFields_spec hwf fields
  rw [← Writer.read_emit h p.1 p.2]
  exact Memory.read_congr _ _ _ _ _ fun i hi => hkeeps _ (by omega)

/-! ### The requests -/

/-- An EMIT request for each field leaves the writer of all the fields. -/
theorem responses_emitFields {fields : List (Nat × Nat)} (hf : ∀ p ∈ fields, p.2 ≤ 64) {s : State} {w : Writer}
    (hs : s.status = .ok) (hw : s.w = .live w) :
    ∃ (t : State) (rs : List Response), t.status = .ok ∧ t.w = .live (Writer.emitFields w fields) ∧
      ∀ qs, responses (fields.map (fun p => reqEmit p.1 p.2) ++ qs) s = rs ++ responses qs t := by
  induction fields generalizing s w with
  | nil => exact ⟨s, [], hs, hw, fun _ => rfl⟩
  | cons p fields ih =>
    obtain ⟨hp, hrest⟩ := List.forall_mem_cons.1 hf
    obtain ⟨t1, hcall, hs1, hw1⟩ := call_reqEmit_w p.1 hs hw hp
    obtain ⟨t, rs, ht, hwt, hresp⟩ := ih hrest hs1 hw1
    refine ⟨t, t1.resp :: rs, ht, hwt, fun qs => ?_⟩
    rw [List.map_cons, List.cons_append, responses_cons_of_call _ hcall, hresp, List.cons_append]

/-- BW.NEW, an EMIT for each field and BW.FINALIZE answer at last the bytes of those fields, from any state. -/
theorem responses_writeFields {fields : List (Nat × Nat)} (hf : ∀ p ∈ fields, p.2 ≤ 64) (s : State) :
    (responses (reqBwNew :: fields.map (fun p => reqEmit p.1 p.2) ++ [reqFinalize]) s).getLast? =
      some { Response.bare 0 with bytesOut := some (Writer.emitFields Writer.empty fields).buf } := by
  obtain ⟨s1, hnew, hs1, hw1⟩ : ∃ t, call reqBwNew s = .next t ∧ t.status = .ok ∧ t.w = .live Writer.empty :=
    ⟨_, call_reqBwNew s, rfl, rfl⟩
  obtain ⟨t, rs, ht, hwt, hresp⟩ := responses_emitFields hf hs1 hw1
  have hlast : responses [reqFinalize] t =
      [{ Response.bare 0 with bytesOut := some (Writer.emitFields Writer.empty fields).buf }] := by
    rw [responses_cons_of_call _ (call_reqFinalize ht hwt), answer_resp, load_status, ht]
    rfl
  rw [List.cons_append, responses_cons_of_call _ hnew, hresp, hlast, ← List.cons_append, List.getLast?_concat]

/-- A READBITS request for each field, from where the writer stood before it emitted them, answers each field's low
bits. Where the reader stands is where the writer stood, field after field. -/
theorem responses_readFields {fields : List (Nat × Nat)} (hf : ∀ p ∈ fields, p.2 ≤ 64) {s : State} {w : Writer}
    (hwf : Writer.wf w = true) (hs : s.status = .ok)
    (hr : s.r = .live { buf := (Writer.emitFields w fields).buf, n := Writer.nbits w }) :
    responses (fields.map fun p => reqReadBits p.2) s =
      fields.map fun p => { Response.bare 0 with data := some (BitVec.ofNat 64 (low p.1 p.2)) } := by
  induction fields generalizing s w with
  | nil => rfl
  | cons p fields ih =>
    obtain ⟨hp, hrest⟩ := List.forall_mem_cons.1 hf
    obtain ⟨hwf1, hnbits, -⟩ := Writer.emit_spec hwf p.1 p.2
    obtain ⟨hwf', hle, -⟩ := Writer.emitFields_spec hwf1 fields
    have hroom : Writer.nbits w + p.2 ≤ 8 * (Writer.emitFields w (p :: fields)).buf.length :=
      (hnbits.symm.trans_le hle).trans (Writer.nbits_le hwf')
    have hrem : p.2 ≤ Reader.rem { buf := (Writer.emitFields w (p :: fields)).buf, n := Writer.nbits w } :=
      Nat.le_sub_of_add_le' hroom
    obtain ⟨t, hcall, ht, hrt, hresp⟩ : ∃ t, call (reqReadBits p.2) s = .next t ∧ t.status = .ok ∧
        t.r = .live { buf := (Writer.emitFields w (p :: fields)).buf, n := Writer.nbits w + p.2 } ∧
        t.resp = { Response.bare 0 with data := some (BitVec.ofNat 64 (low p.1 p.2)) } := by
      refine ⟨_, call_reqReadBits hs hr hp hrem, hs, rfl, ?_⟩
      rw [answer_of_ok, Reader.look, Writer.read_emitFields_cons hwf]
      · rfl
      · exact hs
    rw [List.map_cons, List.map_cons, responses_cons_of_call _ hcall, hresp,
      ih hrest hwf1 ht (by rw [hrt, hnbits]; rfl)]

/-! ### The obligation -/

/-- Settles O27: PEEK and READBITS look at the same bits; two reads are one MemRead in two parts; and the reader of a
writer's bytes meets its fields one after another. -/
theorem readerMirrorsWriter : Obligations.ReaderMirrorsWriter := by
  refine ⟨?peek, ?split, ?mirror⟩
  case peek =>
    intro s c n hs hr hn hrem
    obtain ⟨hn8, hnrem⟩ := le_min_iff.1 hn
    refine ⟨_, _, call_reqPeek hs hr hn8 hrem, call_reqReadBits hs hr (by omega) hnrem, ?_⟩
    rw [answer_resp, answer_resp, min_eq_left hnrem]
  case split =>
    intro s c n1 n2 hs hr hn hrem
    have hrem2 : n2 ≤ Reader.rem (Reader.skip c n1) := by
      simp only [Reader.rem, Reader.skip] at hrem ⊢
      omega
    refine ⟨_, _, _, Reader.look c n1, Reader.look (Reader.skip c n1) n2,
      call_reqReadBits hs hr (by omega) (by omega), call_reqReadBits hs rfl (by omega) hrem2,
      call_reqReadBits hs hr hn hrem, rfl, rfl, Memory.read_lt _ _ _, Memory.read_lt _ _ _, ?_, ?_⟩
    · rw [answer_resp, Reader.look, Memory.read_add, Nat.mul_comm]
      rfl
    · simp only [answer_r, Reader.skip, Nat.add_assoc]
  case mirror =>
    intro s s' fields hfields
    have hf : ∀ p ∈ fields, p.2 ≤ 64 := fun p hp => (hfields p hp).2
    refine ⟨(Writer.emitFields Writer.empty fields).buf, responses_writeFields hf s, ?_⟩
    rw [responses_cons_of_call _ (call_reqBrNew _ s'), responses_readFields hf (w := Writer.empty) rfl rfl rfl]
    rfl

end Sys2Proof.Machine
end

section
/-! FT.SELECT (42_formtable.md R92 to R94): the form it answers, on each of the three ranges of its operand, and the
machine's answer with it. -/

namespace Sys2Proof.Machine

open Sys2Proof

/-! ### The form of a value -/

/-- A value in a form's range takes that form (R92): what `selectForm` gives has the value in its own range, and the
ranges do not overlap. -/
theorem selectForm_of_holds {k : RegForm} {v : Nat} (h : RegForm.Holds k v) :
    selectForm (v : Int) =
      .ok { form := .reg k, adj := v - (RegForm.descriptor k).shift, width := Form.width (.reg k) } := by
  have hmax : v ≤ 594213 := h.2.trans (RegForm.top_le_maxRegularized k)
  have hdomain : 594213 ≤ maxValue := by decide
  rcases selectForm_cases (v : Int) with ⟨hbad, -⟩ | ⟨-, f, adj, hs, hadj, hv⟩
  · omega
  · cases f with
    | reg j =>
      simp only [Form.base, Form.payloadBits] at hadj hv
      have htop := RegForm.top_add_one j
      obtain rfl : j = k := RegForm.Holds.unique ⟨by omega, by omega⟩ h
      obtain rfl : adj = v - (RegForm.descriptor j).shift := by omega
      exact hs
    | raw n =>
      simp only [Form.base, rawOffset_eq] at hv
      omega

/-- A value of the domain above MAX_REGULARIZED takes a raw form: no range's top reaches it (R92, R93). -/
theorem selectForm_of_gt {v : Nat} (h : maxRegularized < v) (hdomain : v ≤ maxValue) :
    selectForm (v : Int) = rawSelect v := by
  have hin : ¬ ((v : Int) < 0 ∨ (maxValue : Int) < v) := by omega
  have hnone : regForms.find? (fun k => decide ((v : Int).toNat ≤ (RegForm.descriptor k).top)) = none := by
    refine List.find?_eq_none.2 fun k _ => ?_
    have htop : (RegForm.descriptor k).top < v := (RegForm.top_le_maxRegularized k).trans_lt h
    simpa using htop
  rw [selectForm, if_neg hin, hnone, Int.toNat_natCast]

theorem selectForm_of_not_inDomain {v : Int} (h : ¬ InDomain v) : selectForm v = .error .range := by
  rcases selectForm_cases v with ⟨-, hs⟩ | ⟨hin, -⟩
  · exact hs
  · exact absurd hin h

/-- The byte count of R93 is the least: with one byte less the payload would not fit, unless there are only three
(10_state.md R21). -/
theorem rawSize_minimal {n : RawSize} {a : Nat} (h : RawSize.number n + 1 = max 3 (ceilDiv (bitLength a) 8)) :
    RawSize.number n = 2 ∨ 2 ^ (8 * RawSize.number n) ≤ a := by
  rcases lt_or_ge a (2 ^ (8 * RawSize.number n)) with hfits | hge
  · have hlen : bitLength a ≤ 8 * RawSize.number n := (bitLength_le_iff _ _).2 hfits
    unfold ceilDiv at h
    exact .inl (by omega)
  · exact .inr hge

/-! ### The operation -/

/-- FT.SELECT answers the form of its operand, in any state (R92, 60_exceptions.md R134). -/
theorem exec_ftSelect_of_ok {s : State} {ev : EncodedValue} (h : selectForm s.args.value = .ok ev) :
    exec .ftSelect s = .next (State.answer s { noResult with form := some (.selected ev) }) := by
  show execFtSelect s = _
  simp only [execFtSelect, selectValue, h]

theorem exec_ftSelect_of_error {s : State} {e : ErrorKind} (h : selectForm s.args.value = .error e) :
    exec .ftSelect s = .next (raiseFromOk e s) := by
  show execFtSelect s = _
  simp only [execFtSelect, selectValue, h]

theorem raiseFromOk_of_ok {s : State} (e : ErrorKind) (hs : s.status = .ok) : raiseFromOk e s = raise e s := by
  simp only [raiseFromOk, hs]

/-- In a fault state an error of FT.SELECT shows in the response alone (60_exceptions.md R134). -/
theorem raiseFromOk_of_fault {s : State} (e : ErrorKind) (hs : s.status ≠ .ok) :
    raiseFromOk e s = { s with resp := Response.bare (ErrorKind.code e) } := by
  unfold raiseFromOk
  split
  · rename_i hok
    exact absurd hok hs
  · rfl

/-! ### The obligations -/

/-- Settles O7: the value lies in one form's range, which is the form answered, and every earlier range ends below
that one's start. -/
theorem selectTakesSmallestForm : Obligations.SelectTakesSmallestForm := by
  intro s v hv hmax
  obtain ⟨k, hk⟩ := RegForm.exists_holds hmax
  have hform := selectForm_of_holds hk
  rw [← hv] at hform
  exact ⟨k, exec_ftSelect_of_ok hform, hk.1, hk.2, fun j hj => (RegForm.top_lt_shift hj).trans_le hk.1⟩

/-- Settles O8: above MAX_REGULARIZED the form is the one `raw_select` gives, whose byte count holds the payload and is
the least that does. -/
theorem selectRawIsMinimal : Obligations.SelectRawIsMinimal := by
  intro s v hv hgt hdomain
  obtain ⟨n, hraw, hbytes, hfits⟩ := rawSelect_ok hdomain
  have hform : selectForm s.args.value =
      .ok { form := .raw n, adj := v - rawOffset, width := Form.width (.raw n) } := by
    rw [hv, selectForm_of_gt hgt hdomain, hraw]
  exact ⟨n, exec_ftSelect_of_ok hform, hfits, rawSize_minimal hbytes⟩

/-- Settles O9: the form of a value outside the domain is RangeError, which FT.SELECT raises from OK and only answers
in a fault state. -/
theorem selectOutsideDomainFails : Obligations.SelectOutsideDomainFails := by
  intro s hv
  have herror := exec_ftSelect_of_error (selectForm_of_not_inDomain hv)
  refine ⟨fun hs => ?_, fun hs => ?_⟩
  · rw [herror, raiseFromOk_of_ok _ hs]
  · rw [herror, raiseFromOk_of_fault _ hs]
    rfl

end Sys2Proof.Machine
end

section
/-! FT.CLASSIFY (42_formtable.md R96 to R101). All of it rests on one fact: a window is classified as the form whose
first bits `PV` its own low bits are. -/

namespace Sys2Proof.Machine

open Sys2Proof

/-- R96 as a test of the window's low bits (30_encoding.md R64). -/
theorem classify_eq_iff (p : BitVec 8) (f : Form) :
    classify p = f ↔ p.toNat % 2 ^ Form.prefixBits f = Form.prefixValue f :=
  ⟨fun h => h ▸ classify_low p, classify_of_low p f⟩

/-! ### Match and mask -/

/-- R96's mask for a form keeps the `P` low bits, and its match is `PV`. -/
theorem classify_of_mask {p : BitVec 8} (f : Form)
    (h : p &&& BitVec.ofNat 8 (2 ^ Form.prefixBits f - 1) = BitVec.ofNat 8 (Form.prefixValue f)) : classify p = f := by
  have hP : 2 ^ Form.prefixBits f ≤ 2 ^ 8 := Nat.pow_le_pow_right (by decide) (Form.prefixBits_bounds f).2
  have hPV := Form.prefixValue_lt f
  have hnat := congrArg BitVec.toNat h
  rw [BitVec.toNat_and, BitVec.toNat_ofNat, BitVec.toNat_ofNat, Nat.mod_eq_of_lt (by omega),
    Nat.mod_eq_of_lt (by omega : Form.prefixValue f < 2 ^ 8), Nat.and_two_pow_sub_one_eq_mod] at hnat
  exact classify_of_low p f hnat

/-- A form's `PV` with zeros above it is classified as the form. -/
theorem classify_prefixValue (f : Form) : classify (BitVec.ofNat 8 (Form.prefixValue f)) = f :=
  classify_of_mask f (by
    cases f with
    | reg k => cases k <;> rfl
    | raw n => cases n <;> rfl)

/-- What FT.CLASSIFY answers for a window of this form: the form, `P`, `D` and `base` (R96). -/
def Form.row (f : Form) : Form × Nat × Nat × Nat := (f, Form.prefixBits f, Form.payloadBits f, Form.base f)

theorem row_of_mask {p : BitVec 8} (f : Form)
    (h : p &&& BitVec.ofNat 8 (2 ^ Form.prefixBits f - 1) = BitVec.ofNat 8 (Form.prefixValue f)) :
    Form.row (classify p) = Form.row f :=
  congrArg Form.row (classify_of_mask f h)

theorem row_of_eq {p : BitVec 8} (f : Form) (h : p = BitVec.ofNat 8 (Form.prefixValue f)) :
    Form.row (classify p) = Form.row f := by
  rw [h, classify_prefixValue]

/-- FT.CLASSIFY answers the row of its window's form, in any state (R96, 60_exceptions.md R134). -/
theorem exec_ftClassify (s : State) :
    exec .ftClassify s =
      .next (State.answer s
        { noResult with
          form := some (.classified (classify s.args.window) (Form.prefixBits (classify s.args.window))
            (Form.payloadBits (classify s.args.window)) (Form.base (classify s.args.window))) }) := rfl

/-- Settles O10: each line of the list is a form's mask and match, or, where the mask is all eight bits, its `PV`
itself; and its numbers are that form's row. -/
theorem classifyByMatchAndMask : Obligations.ClassifyByMatchAndMask := fun s =>
  ⟨_, _, _, _, exec_ftClassify s,
    row_of_mask (.reg .f1), row_of_mask (.reg .f2), row_of_mask (.reg .f3), row_of_mask (.reg .f5),
    row_of_mask (.reg .f7), row_of_eq (.reg .f4), row_of_eq (.reg .f6), row_of_eq (.raw .n2), row_of_eq (.raw .n3),
    row_of_eq (.raw .n4), row_of_eq (.raw .n5), row_of_eq (.raw .n6), row_of_eq (.raw .n7)⟩

/-! ### How many windows each form takes -/

/-- The numbers below a multiple `r * k` of `r` that leave the remainder `v`: one in each block of `r`. -/
theorem length_filter_mod_eq {r v : Nat} (k : Nat) (hv : v < r) :
    ((List.range (r * k)).filter fun p => p % r = v).length = k := by
  have hr : 0 < r := Nat.zero_lt_of_lt hv
  have hcount : (r * k).count (fun p => p % r = v) = k := by
    have hmod := Nat.count_modEq_card (r * k) hr v
    simp only [Nat.ModEq, Nat.mod_eq_of_lt hv] at hmod
    simpa [hr] using hmod
  rw [Nat.count_eq_card_filter_range] at hcount
  exact hcount

/-- A form told by its first `P` bits takes one window in `2^P`. -/
theorem length_windows (f : Form) :
    ((List.range 256).filter fun p => classify (BitVec.ofNat 8 p) = f).length = 2 ^ (8 - Form.prefixBits f) := by
  have hP := (Form.prefixBits_bounds f).2
  have hblocks : 2 ^ Form.prefixBits f * 2 ^ (8 - Form.prefixBits f) = 256 := by
    rw [← pow_add, Nat.add_sub_of_le hP]
    rfl
  have hwindow : ∀ p, classify (BitVec.ofNat 8 p) = f ↔ p % 2 ^ Form.prefixBits f = Form.prefixValue f := fun p => by
    rw [classify_eq_iff, BitVec.toNat_ofNat, Nat.mod_mod_of_dvd _ (pow_dvd_pow 2 hP)]
  simp only [hwindow]
  rw [← hblocks, length_filter_mod_eq _ (Form.prefixValue_lt f)]

/-- `PV` is a control byte, whose low five bits are set, or has at most five bits, not all set (10_state.md R18,
30_encoding.md R63). -/
theorem Form.prefixValue_cases (f : Form) :
    (Form.prefixBits f = 8 ∧ Form.prefixValue f % 2 ^ 5 = 31) ∨
      (Form.prefixBits f ≤ 5 ∧ Form.prefixValue f ≠ 31 % 2 ^ Form.prefixBits f) := by
  cases f with
  | reg k => cases k <;> decide
  | raw n => cases n <;> decide

/-- The control-byte family is the windows whose low five bits are set, and its forms those told by eight bits
(R96). -/
theorem prefixBits_classify_eq_eight_iff (p : BitVec 8) : Form.prefixBits (classify p) = 8 ↔ p.toNat % 32 = 31 := by
  have hlow := classify_low p
  rcases Form.prefixValue_cases (classify p) with ⟨hP, hPV⟩ | ⟨hP, hPV⟩
  · have hset : p.toNat % 32 = 31 := by
      rw [← hPV, ← hlow, hP]
      exact (Nat.mod_mod_of_dvd _ (by decide)).symm
    exact iff_of_true hP hset
  · have hnot : p.toNat % 2 ^ 5 ≠ 31 := fun hset =>
      hPV (by rw [← hlow, ← hset, Nat.mod_mod_of_dvd _ (pow_dvd_pow 2 hP)])
    exact iff_of_false (by omega) hnot

theorem Form.prefixBits_eq_eight_iff (f : Form) :
    Form.prefixBits f = 8 ↔
      f ∈ [Form.reg .f4, .reg .f6, .raw .n2, .raw .n3, .raw .n4, .raw .n5, .raw .n6, .raw .n7] := by
  cases f with
  | reg k => cases k <;> decide
  | raw n => cases n <;> decide

/-- Settles O11: the counts from each form's `P`, the family from its five set bits, and the answer leaves
STATUS as it is. -/
theorem classifyIsTotal : Obligations.ClassifyIsTotal := by
  refine ⟨?counts, fun p => ?family, fun s => ⟨_, exec_ftClassify s, answer_status _ _⟩⟩
  case counts =>
    simp only [length_windows]
    rfl
  case family => rw [← prefixBits_classify_eq_eight_iff, Form.prefixBits_eq_eight_iff]

/-! ### Fill bits, and the agreement with FT.SELECT -/

/-- Settles O12: windows with the same valid bits have the same low `P` bits where these are all valid; and a code word
is no shorter than its first `P` bits. -/
theorem classifyOfFillIsHarmless : Obligations.ClassifyOfFillIsHarmless := by
  intro m p _
  refine ⟨fun hP q hq => classify_of_low q _ ?_, fun hm => Nat.lt_add_right _ hm⟩
  have hdvd : 2 ^ Form.prefixBits (classify p) ∣ 2 ^ m := pow_dvd_pow 2 hP
  rw [← Nat.mod_mod_of_dvd _ hdvd, hq, Nat.mod_mod_of_dvd _ hdvd, classify_low]

/-- Settles O13: FT.SELECT gives the value a form and what is left of it above the form's base, and a window
that begins with the form's `PV` is classified as that form. -/
theorem selectAndClassifyAgree : Obligations.SelectAndClassifyAgree := by
  intro s s' hv
  rcases selectForm_cases s.args.value with ⟨hbad, -⟩ | ⟨-, f, adj, hform, -, hsum⟩
  · obtain ⟨hlo, hhi⟩ := hv
    omega
  · refine ⟨_, _, exec_ftSelect_of_ok hform, rfl, fun hprefix => ⟨_, Form.base f, exec_ftClassify s', ?_, hsum⟩⟩
    rw [answer_resp, classify_of_low _ f hprefix]

end Sys2Proof.Machine
end

section
/-! CODEC.ENCODE (43_codec_encode.md R102 to R108) and what both codec calls have in common: the writer the loop
leaves, the two answers of each call, and how many bytes a value takes. -/

namespace Sys2Proof.Machine

open Sys2Proof

/-! ### The buffer of a canonical writer -/

@[simp] theorem Writer.bits_length (w : Writer) : (Writer.bits w).length = Writer.nbits w := by
  simp [Writer.bits]

/-- The bits of the whole buffer are the bits written, then the padding, which is zero (10_state.md R24). -/
theorem Writer.map_bit_buf {w : Writer} (h : Writer.wf w = true) :
    (List.range (8 * w.buf.length)).map (Memory.bit w.buf) =
      Writer.bits w ++ List.replicate (8 * w.buf.length - Writer.nbits w) false := by
  obtain ⟨pad, hpad⟩ := Nat.exists_eq_add_of_le (Writer.nbits_le h)
  have hzero : ∀ i, Memory.bit w.buf (Writer.nbits w + i) = false := fun i =>
    Memory.bit_lt_of_wf h (Nat.le_add_right _ _)
  rw [hpad, Nat.add_sub_cancel_left, List.range_add, List.map_append, List.map_map, Writer.bits]
  simp [Function.comp_def, hzero]

/-! ### The loop of CODEC.ENCODE -/

theorem length_flatMap_valueBits (vs : List Int) : (vs.flatMap valueBits).length = (vs.map valueWidth).sum :=
  List.length_flatMap

/-- How many bytes CODEC.ENCODE answers for these values (R108). -/
def encodedLength (vs : List Int) : Nat := ((vs.map valueWidth).sum + 7) / 8

/-- The loop of a whole call on values of the domain (R104): its writer holds the code words and nothing else. -/
theorem encodeLoop_inDomain {vs : List Int} (h : ∀ v ∈ vs, InDomain v) :
    ∃ w, encodeLoop vs Writer.empty 0 = .ok (w, vs.length) ∧ Writer.wf w = true ∧
      Writer.bits w = vs.flatMap valueBits ∧ Writer.nbits w = (vs.map valueWidth).sum ∧
      w.buf.length = encodedLength vs := by
  obtain ⟨w, hloop, hwf, hbits⟩ := encodeLoop_ok vs Writer.empty 0 rfl h
  have hbits' : Writer.bits w = vs.flatMap valueBits := hbits
  have hnbits : Writer.nbits w = (vs.map valueWidth).sum := by
    rw [← Writer.bits_length, hbits', length_flatMap_valueBits]
  refine ⟨w, by simpa using hloop, hwf, hbits', hnbits, ?_⟩
  rw [Writer.length_of_wf hwf, hnbits]
  rfl

/-! ### The answers of the codec calls -/

theorem exec_codecEncode_of_ok {s : State} {w : Writer} {i : Nat}
    (h : encodeLoop s.args.valuesIn Writer.empty 0 = .ok (w, i)) :
    exec .codecEncode s =
      .next { s with
        w := .absent, encIdx := i, status := .ok, resp := { Response.bare 0 with bytesOut := some w.buf } } := by
  show execCodecEncode s = _
  rw [execCodecEncode, valuesOperand, h]
  rfl

theorem exec_codecEncode_of_error {s : State} {e : ErrorKind}
    (h : encodeLoop s.args.valuesIn Writer.empty 0 = .error e) :
    exec .codecEncode s = .next (raise e { newWriter s with encIdx := 0 }) := by
  show execCodecEncode s = _
  rw [execCodecEncode, valuesOperand, h]

/-- The loop that CODEC.DECODE runs on these operands (44_codec_decode.md R115). -/
def decodeRun (b : List Byte) (count : BitVec 64) : Except ErrorKind (Reader × DecodeRecord) :=
  decodeLoop (decodePasses count b) (Reader.over b) (DecodeRecord.start count)

theorem exec_codecDecode_of_ok {s : State} {r : Reader} {d : DecodeRecord}
    (h : decodeRun s.args.bytesIn s.args.count = .ok (r, d)) :
    exec .codecDecode s =
      .next { s with
        r := .absent, status := .ok, d := d, resp := { Response.bare 0 with valuesOut := some d.out } } := by
  have hloop : decodeLoop (decodePasses (countOperand s) (bytesOperand s)) (Reader.over (bytesOperand s))
      (DecodeRecord.start (countOperand s)) = .ok (r, d) := h
  show execCodecDecode s = _
  rw [execCodecDecode, hloop]
  rfl

theorem exec_codecDecode_of_error {s : State} {e : ErrorKind}
    (h : decodeRun s.args.bytesIn s.args.count = .error e) :
    exec .codecDecode s = .next (raise e (startDecode s)) := by
  have hloop : decodeLoop (decodePasses (countOperand s) (bytesOperand s)) (Reader.over (bytesOperand s))
      (DecodeRecord.start (countOperand s)) = .error e := h
  show execCodecDecode s = _
  rw [execCodecDecode, hloop]

/-- With COUNT 0 the decode record is Done before the first pass (44_codec_decode.md R117). -/
theorem decodeRun_zero (b : List Byte) :
    decodeRun b 0 = .ok (Reader.over b, { state := .done, count := 0, out := [] }) :=
  decodeLoop_done rfl

/-! ### CODEC.ENCODE inside the domain, outside it, and of no values -/

/-- No cursor may be used after an error (60_exceptions.md R130). -/
theorem raise_not_live (e : ErrorKind) (s : State) :
    Slot.isLive (raise e s).w = false ∧ Slot.isLive (raise e s).r = false :=
  ⟨writerAfter_not_live _ _ _, readerAfter_not_live _ _ _⟩

/-- Settles O29: the loop's writer is canonical and its bits are the code words, so its buffer is those bits and
zeros. -/
theorem encodeConcatenatesCodeWords : Obligations.EncodeConcatenatesCodeWords := by
  intro s hvs
  obtain ⟨w, hloop, hwf, hbits, hnbits, hlength⟩ := encodeLoop_inDomain hvs
  refine ⟨w.buf, exec_codecEncode_of_ok hloop, hlength, ?_⟩
  rw [Writer.map_bit_buf hwf, hbits, hnbits]

/-- Settles O30: the loop meets the first such value and fails with RangeError, which is raised after the call made its
writer. -/
theorem encodeOutsideDomainFails : Obligations.EncodeOutsideDomainFails := by
  rintro s ⟨v, hmem, hv⟩
  have hout : v < 0 ∨ (maxValue : Int) < v := by
    unfold InDomain at hv
    omega
  have hraise := exec_codecEncode_of_error (encodeLoop_error _ Writer.empty 0 ⟨v, hmem, hout⟩)
  obtain ⟨hw, hr⟩ := raise_not_live .range { newWriter s with encIdx := 0 }
  exact ⟨_, hraise, rfl, rfl, hw, hr, rfl, rfl, rfl, rfl, rfl⟩

/-- Settles O36: neither loop makes a pass. -/
theorem callsOfNoValues : Obligations.CallsOfNoValues := by
  refine ⟨fun s h => ?_, fun s h => ?_⟩
  · have hloop : encodeLoop s.args.valuesIn Writer.empty 0 = .ok (Writer.empty, 0) := by
      rw [h]
      rfl
    exact exec_codecEncode_of_ok hloop
  · have hrun := decodeRun_zero s.args.bytesIn
    rw [← h] at hrun
    rw [exec_codecDecode_of_ok hrun, h]

/-! ### A codec call forgets the past -/

theorem exec_codecEncode_congr {s s' : State} (h : s.args.valuesIn = s'.args.valuesIn) :
    ∃ t t', exec .codecEncode s = .next t ∧ exec .codecEncode s' = .next t' ∧ t.resp = t'.resp ∧
      t.status = t'.status := by
  cases hloop : encodeLoop s.args.valuesIn Writer.empty 0 with
  | ok p => exact ⟨_, _, exec_codecEncode_of_ok hloop, exec_codecEncode_of_ok (h ▸ hloop), rfl, rfl⟩
  | error e => exact ⟨_, _, exec_codecEncode_of_error hloop, exec_codecEncode_of_error (h ▸ hloop), rfl, rfl⟩

theorem exec_codecDecode_congr {s s' : State} (hb : s.args.bytesIn = s'.args.bytesIn)
    (hc : s.args.count = s'.args.count) :
    ∃ t t', exec .codecDecode s = .next t ∧ exec .codecDecode s' = .next t' ∧ t.resp = t'.resp ∧
      t.status = t'.status := by
  cases hrun : decodeRun s.args.bytesIn s.args.count with
  | ok p => exact ⟨_, _, exec_codecDecode_of_ok hrun, exec_codecDecode_of_ok (hb ▸ hc ▸ hrun), rfl, rfl⟩
  | error e =>
    exact ⟨_, _, exec_codecDecode_of_error hrun, exec_codecDecode_of_error (hb ▸ hc ▸ hrun), rfl, rfl⟩

/-- Settles O41: each loop is run on the operands alone, and the response and STATUS are made of what it gives. -/
theorem codecCallsForgetThePast : Obligations.CodecCallsForgetThePast :=
  ⟨fun s s' vs =>
      exec_codecEncode_congr (s := State.load s (reqEncode vs) []) (s' := State.load s' (reqEncode vs) []) rfl,
    fun s s' b c =>
      exec_codecDecode_congr (s := State.load s (reqDecode b c) []) (s' := State.load s' (reqDecode b c) []) rfl rfl⟩

/-! ### The byte length of one value (R108) -/

/-- The values below `lengthBound n` take at most `n` bytes (R108): those up to the tops of forms 3, 5 and 7, then those
whose part above RAW_OFFSET fits `n − 1` payload bytes. -/
def lengthBound : Nat → Nat
  | 0 => 0
  | 1 => 38
  | 2 => 4390
  | 3 => 594214
  | n + 4 => 594214 + 2 ^ (8 * (n + 3))

theorem lengthBound_mono : Monotone lengthBound := by
  refine monotone_nat_of_le_succ fun n => ?_
  match n with
  | 0 | 1 | 2 => decide
  | 3 => exact Nat.le_add_right _ _
  | n + 4 => exact Nat.add_le_add_left (Nat.pow_le_pow_right (by decide) (by omega)) _

theorem valueWidth_of_selectForm {v : Int} {ev : EncodedValue} (h : selectForm v = .ok ev) :
    valueWidth v = Form.width ev.form := by
  rw [valueWidth, valueBits, h]
  exact fieldBits_length _ _

theorem encodedLength_singleton {v : Int} {ev : EncodedValue} (h : selectForm v = .ok ev) :
    encodedLength [v] = (Form.width ev.form + 7) / 8 := by
  simp [encodedLength, valueWidth_of_selectForm h]

/-- A regularized form's range lies between two neighbouring bounds. -/
theorem RegForm.lengthBounds (k : RegForm) :
    ∃ n, (Form.width (.reg k) + 7) / 8 = n + 1 ∧ lengthBound n ≤ (RegForm.descriptor k).shift ∧
      (RegForm.descriptor k).top < lengthBound (n + 1) := by
  cases k with
  | f1 | f2 | f3 => exact ⟨0, by decide⟩
  | f4 | f5 => exact ⟨1, by decide⟩
  | f6 | f7 => exact ⟨2, by decide⟩

/-- The values that take a raw form of `N + 1` payload bytes lie between two neighbouring bounds too, by the minimality
of N (42_formtable.md R93). -/
theorem RawSize.lengthBounds {n : RawSize} {v : Nat} (hv : rawOffset ≤ v)
    (hmin : RawSize.number n = 2 ∨ 2 ^ (8 * RawSize.number n) ≤ v - rawOffset)
    (hfits : v - rawOffset < 2 ^ (8 * (RawSize.number n + 1))) :
    lengthBound (RawSize.number n + 1) ≤ v ∧ v < lengthBound (RawSize.number n + 2) := by
  rw [rawOffset_eq] at hv hmin hfits
  cases n with
  | n2 | n3 | n4 | n5 | n6 | n7 =>
    simp only [RawSize.number, lengthBound] at hmin hfits ⊢
    omega

/-- Where a value of the domain stands among the bounds is how many bytes it takes. -/
theorem encodedLength_singleton_bounds {v : Nat} (h : v ≤ maxValue) :
    ∃ n, encodedLength [(v : Int)] = n + 1 ∧ lengthBound n ≤ v ∧ v < lengthBound (n + 1) := by
  rcases Nat.lt_or_ge maxRegularized v with hraw | hreg
  · obtain ⟨n, hselect, hbytes, hfits⟩ := rawSelect_ok h
    have hform := (selectForm_of_gt hraw h).trans hselect
    have hlength : (Form.width (.raw n) + 7) / 8 = RawSize.number n + 1 + 1 := by
      cases n <;> rfl
    exact ⟨RawSize.number n + 1, (encodedLength_singleton hform).trans hlength,
      RawSize.lengthBounds hraw (rawSize_minimal hbytes) hfits⟩
  · obtain ⟨k, hk⟩ := RegForm.exists_holds hreg
    obtain ⟨n, hlength, hlo, hhi⟩ := RegForm.lengthBounds k
    exact ⟨n, (encodedLength_singleton (selectForm_of_holds hk)).trans hlength, hlo.trans hk.1, hk.2.trans_lt hhi⟩

theorem le_of_lengthBound {m n u v : Nat} (hu : lengthBound m ≤ u) (huv : u ≤ v) (hv : v < lengthBound (n + 1)) :
    m ≤ n :=
  Nat.le_of_lt_succ (lengthBound_mono.reflect_lt (hu.trans_lt (huv.trans_lt hv)))

/-- A range of values between two neighbouring bounds takes one number of bytes. -/
theorem encodedLength_of_range (n : Nat) {lo hi : Nat} (hlo : lengthBound n ≤ lo) (hhi : hi < lengthBound (n + 1))
    (hdomain : hi ≤ maxValue) (v : Int) (h1 : (lo : Int) ≤ v) (h2 : v ≤ (hi : Int)) : encodedLength [v] = n + 1 := by
  lift v to Nat using by omega
  obtain ⟨m, hm, hmlo, hmhi⟩ := encodedLength_singleton_bounds (v := v) (by omega)
  have hmn : m ≤ n := le_of_lengthBound hmlo le_rfl (by omega)
  have hnm : n ≤ m := le_of_lengthBound (u := v) (by omega) le_rfl hmhi
  rw [hm, Nat.le_antisymm hmn hnm]

theorem encodedLength_singleton_mono {u v : Int} (hu : InDomain u) (hv : InDomain v) (h : u ≤ v) :
    encodedLength [u] ≤ encodedLength [v] := by
  obtain ⟨hu0, hu1⟩ := hu
  obtain ⟨hv0, hv1⟩ := hv
  lift u to Nat using hu0
  lift v to Nat using hv0
  obtain ⟨m, hm, hmlo, -⟩ := encodedLength_singleton_bounds (v := u) (by omega)
  obtain ⟨n, hn, -, hnhi⟩ := encodedLength_singleton_bounds (v := v) (by omega)
  have hmn : m ≤ n := le_of_lengthBound hmlo (by omega) hnhi
  omega

/-- Settles O31 with `encodedLength`: the loop's buffer has that length, and R108's ranges lie between the neighbouring
bounds. -/
theorem encodedLengths : Obligations.EncodedLengths := by
  refine ⟨encodedLength, fun s vs hvs => ?length,
    encodedLength_of_range 0 (lo := 0) (hi := 37) (by decide) (by decide) (by decide),
    encodedLength_of_range 1 (lo := 38) (hi := 4389) (by decide) (by decide) (by decide),
    encodedLength_of_range 2 (lo := 4390) (hi := 594213) (by decide) (by decide) (by decide),
    encodedLength_of_range 3 (lo := 594214) (hi := 17371429) (by decide) (by decide) (by decide),
    encodedLength_of_range 4 (lo := 17371430) (hi := 4295561509) (by decide) (by decide) (by decide),
    encodedLength_of_range 5 (lo := 4295561510) (hi := 1099512221989) (by decide) (by decide) (by decide),
    encodedLength_of_range 6 (lo := 1099512221990) (hi := 281474977304869) (by decide) (by decide) (by decide),
    encodedLength_of_range 7 (lo := 281474977304870) (hi := 72057594038522149) (by decide) (by decide) (by decide),
    encodedLength_of_range 8 (lo := 72057594038522150) (hi := maxValue) (by decide) (by decide) le_rfl,
    fun _ _ => encodedLength_singleton_mono, fun _ _ => rfl, by decide⟩
  case length =>
    obtain ⟨w, hloop, -, -, -, hlength⟩ := encodeLoop_inDomain hvs
    exact ⟨_, w.buf, call_reqEncode hloop s, rfl, hlength⟩

end Sys2Proof.Machine
end

section
/-! The code words of a decode call run alone (44_codec_decode.md R109 to R114): what each of the thirteen does, how it
fails, and where it does nothing. Each statement is proved once, over the form. -/

namespace Sys2Proof.Machine

open Sys2Proof

theorem codeWord_of_pass {s : State} {c r' : Reader} {d' : DecodeRecord} {f : Form} {x : Nat}
    (hc : callReader s = some c) (h : codeWordPass f x c s.d = .ok (r', d')) :
    codeWord f x s = .next { s with r := .live r', d := d' } := by
  simp only [codeWord, hc, h]

theorem codeWord_of_error {s : State} {c : Reader} {e : ErrorKind} {f : Form} {x : Nat}
    (hc : callReader s = some c) (h : codeWordPass f x c s.d = .error e) : codeWord f x s = .next (raise e s) := by
  simp only [codeWord, hc, h]

theorem Reader.le_rem_iff {c : Reader} {n : Nat} (hn : 0 < n) : n ≤ Reader.rem c ↔ c.n + n ≤ 8 * c.buf.length := by
  unfold Reader.rem
  omega

/-- Every code word does what R110 says, by its form's own width and base. -/
theorem codeWordInstr_does (f : Form) (d : Nat) :
    CodeWordDoes (codeWordInstr f d) (Form.width f) (Form.base f) d := by
  intro s c hs hr hd hroom hvalue
  have hwidth : 0 < Form.width f := Nat.lt_of_lt_of_le (by decide) (Form.width_bounds f).1
  have hpass := (codeWordPass_ok (d := s.d)).2 ⟨(Reader.le_rem_iff hwidth).2 hroom, hvalue, rfl, rfl⟩
  rw [exec_codeWordInstr, codeWord_of_pass (callReader_eq_some.2 ⟨hs, hr, hd⟩) hpass, DecodeRecord.push, hd]
  rfl

/-- Every code word cut short fails as R111 and R112 say, by its form's own width. -/
theorem codeWordInstr_short (f : Form) (d : Nat) : CodeWordShort (codeWordInstr f d) (Form.width f) := by
  intro s c hs hr hd
  have hcall := callReader_eq_some.2 ⟨hs, hr, hd⟩
  rw [exec_codeWordInstr]
  refine ⟨fun hend => ?_, fun hsome hfew => ?_⟩
  · exact codeWord_of_error hcall (codeWordPass_error.2 (.inl ⟨Nat.sub_eq_zero_of_le hend, rfl⟩))
  · refine codeWord_of_error hcall (codeWordPass_error.2 (.inr (.inl ⟨?_, ?_, rfl⟩))) <;> unfold Reader.rem <;> omega

/-- Only the widest raw form can stand for a value above the domain: the payload of any other is below 2^56 (R114). -/
theorem maxValue_lt_base_add_iff {f : Form} {d : Nat} (hd : d < 2 ^ Form.payloadBits f) :
    maxValue < Form.base f + d ↔ f = .raw .n7 ∧ 0xFFFFFFFFFFF6EED9 < d := by
  have hbase := Form.base_le f
  by_cases hf : f = .raw .n7
  · subst hf
    simp only [Form.base, rawOffset_eq, maxValue, true_and]
    omega
  · have hbits : ∀ g ∈ allForms, g ≠ .raw .n7 → Form.payloadBits g ≤ 56 := by decide
    have hsmall : d < 2 ^ 56 :=
      Nat.lt_of_lt_of_le hd (Nat.pow_le_pow_right (by decide) (hbits f (allForms_complete f) hf))
    simp only [hf, false_and, iff_false, maxValue]
    omega

/-- Settles O45: each form's width and base are the numbers of R55 to R61. -/
theorem regularizedCodeWordsAppendTheirValues : Obligations.RegularizedCodeWordsAppendTheirValues := fun d =>
  ⟨codeWordInstr_does (.reg .f1) d, codeWordInstr_does (.reg .f2) d, codeWordInstr_does (.reg .f3) d,
    codeWordInstr_does (.reg .f4) d, codeWordInstr_does (.reg .f5) d, codeWordInstr_does (.reg .f6) d,
    codeWordInstr_does (.reg .f7) d⟩

/-- Settles O46: each raw form's width and base are the numbers of R62. -/
theorem rawCodeWordsAppendTheirValues : Obligations.RawCodeWordsAppendTheirValues := fun d =>
  ⟨codeWordInstr_does (.raw .n2) d, codeWordInstr_does (.raw .n3) d, codeWordInstr_does (.raw .n4) d,
    codeWordInstr_does (.raw .n5) d, codeWordInstr_does (.raw .n6) d, codeWordInstr_does (.raw .n7) d⟩

/-- Settles O47, form by form. -/
theorem codeWordsCutShortFail : Obligations.CodeWordsCutShortFail := fun d =>
  ⟨codeWordInstr_short (.reg .f1) d, codeWordInstr_short (.reg .f2) d, codeWordInstr_short (.reg .f3) d,
    codeWordInstr_short (.reg .f4) d, codeWordInstr_short (.reg .f5) d, codeWordInstr_short (.reg .f6) d,
    codeWordInstr_short (.reg .f7) d, codeWordInstr_short (.raw .n2) d, codeWordInstr_short (.raw .n3) d,
    codeWordInstr_short (.raw .n4) d, codeWordInstr_short (.raw .n5) d, codeWordInstr_short (.raw .n6) d,
    codeWordInstr_short (.raw .n7) d⟩

/-- Settles O48: with its bits there a code word raises RangeError where its value is above the domain, and otherwise
STATUS stays OK. -/
theorem rawValueBeyond64BitsIsRangeError : Obligations.RawValueBeyond64BitsIsRangeError := by
  intro s c f d hs hr hstate hroom hd
  have hwidth : 0 < Form.width f := Nat.lt_of_lt_of_le (by decide) (Form.width_bounds f).1
  have hraise : maxValue < Form.base f + d → exec (codeWordInstr f d) s = .next (raise .range s) := fun hover => by
    rw [exec_codeWordInstr]
    exact codeWord_of_error (callReader_eq_some.2 ⟨hs, hr, hstate⟩)
      (codeWordPass_error.2 (.inr (.inr ⟨(Reader.le_rem_iff hwidth).2 hroom, hover, rfl⟩)))
  rw [← maxValue_lt_base_add_iff hd]
  refine ⟨⟨?_, fun hover => ⟨_, hraise hover, rfl⟩⟩, fun hf hbig => hraise ((maxValue_lt_base_add_iff hd).2 ⟨hf, hbig⟩)⟩
  rintro ⟨t, ht, hfault⟩
  by_contra hfits
  rw [codeWordInstr_does f d s c hs hr hstate hroom (Nat.not_lt.1 hfits)] at ht
  cases ht
  exact absurd (hs.symm.trans hfault) nofun

/-- Settles O49: in each of the three cases no reader may be used in a call. -/
theorem codeWordsOutsideACallDoNothing : Obligations.CodeWordsOutsideACallDoNothing := by
  intro s f d h
  have hnone : callReader s = none := by
    refine Option.eq_none_iff_forall_ne_some.2 fun c hc => ?_
    obtain ⟨hs, hr, hstate⟩ := callReader_eq_some.1 hc
    rcases h with hfault | hdead | hdone
    · exact hfault hs
    · rw [hr] at hdead
      cases hdead
    · rw [hstate] at hdone
      cases hdone
  rw [exec_codeWordInstr, codeWord, hnone]

/-- Settles O44: the pass takes the branch that runs the code word, and a payload that is read fits. -/
theorem passRunsTheCodeWordRead : Obligations.PassRunsTheCodeWordRead := by
  intro s c f d hs hr hstate hread
  obtain ⟨hd, -, -⟩ := code_of_decodeCodeWord hread
  refine ⟨?_, (wf_codeWordInstr f d).trans (decide_eq_true hd)⟩
  simp only [callStep, callReader_eq_some.2 ⟨hs, hr, hstate⟩, hread]

end Sys2Proof.Machine
end

section
/-! Reading code words out of a byte buffer (30_encoding.md R66, R67, 44_codec_decode.md R110 to R114): what stands at
one bit, and the code words a buffer begins with. -/

namespace Sys2Proof.Machine

open Sys2Proof

/-! ### The code word at one bit -/

/-- What the decoder reads at bit `a`: a whole code word stands there (R66, R67, R112). -/
theorem decodeAt_eq_ok {b : Memory} {a : Nat} {f : Form} {d : Nat} :
    decodeAt b a = .ok (f, d) ↔
      d < 2 ^ Form.payloadBits f ∧ a + Form.width f ≤ 8 * b.length ∧
        Memory.read b a (Form.width f) = Form.prefixValue f + d * 2 ^ Form.prefixBits f := by
  obtain ⟨hw2, hw72, -⟩ := Form.width_bounds f
  have hlow : a + Form.width f ≤ 8 * b.length →
      Memory.read b a (min maxCodeBits (8 * b.length - a)) % 2 ^ Form.width f = Memory.read b a (Form.width f) :=
    fun hroom => Memory.read_mod b a (le_min hw72 (by omega))
  constructor
  · intro h
    obtain ⟨hd, hwidth, hbits⟩ := code_of_decodeCodeWord h
    have hroom : a + Form.width f ≤ 8 * b.length := by omega
    exact ⟨hd, hroom, (hlow hroom).symm.trans hbits⟩
  · rintro ⟨-, hroom, hread⟩
    exact decodeCodeWord_of_code f d (by omega) ((hlow hroom).trans hread)

/-- The form is named by its own first bits (42_formtable.md R96). -/
theorem read_prefixBits_of_decodeAt {b : Memory} {a : Nat} {f : Form} {d : Nat} (h : decodeAt b a = .ok (f, d)) :
    Memory.read b a (Form.prefixBits f) = Form.prefixValue f := by
  obtain ⟨-, -, hread⟩ := decodeAt_eq_ok.1 h
  rw [← Memory.read_mod b a (Nat.le_add_right _ (Form.payloadBits f)), ← Form.width, hread,
    Nat.add_mul_mod_self_right, Nat.mod_eq_of_lt (Form.prefixValue_lt f)]

theorem decodeAt_atEnd {b : Memory} {a : Nat} (h : 8 * b.length ≤ a) : decodeAt b a = .error .noBits := by
  rw [decodeAt, Nat.sub_eq_zero_of_le h]
  exact decodeCodeWord_noBits _

/-- Fewer bits left than the form named by the window needs (R86, R112). -/
theorem decodeAt_short {b : Memory} {a : Nat} (hsome : 8 * b.length - a ≠ 0)
    (hfew : 8 * b.length - a <
      Form.width (classify (BitVec.ofNat 8 (Memory.read b a (min 8 (8 * b.length - a)))))) :
    decodeAt b a = .error .truncated := by
  have hwindow : low (Memory.read b a (min maxCodeBits (8 * b.length - a))) (min 8 (8 * b.length - a)) =
      Memory.read b a (min 8 (8 * b.length - a)) := Memory.read_mod b a (min_le_min_right _ (by decide))
  simp only [decodeAt, decodeCodeWord, if_neg hsome, hwindow, if_pos hfew]

theorem Memory.bit_append_of_lt {b : Memory} (more : Memory) {i : Nat} (h : i < 8 * b.length) :
    Memory.bit (b ++ more) i = Memory.bit b i := by
  rw [Memory.bit, Memory.bit, List.getElem?_append_left (by omega)]

theorem Memory.read_append {b : Memory} (more : Memory) {a n : Nat} (h : a + n ≤ 8 * b.length) :
    Memory.read (b ++ more) a n = Memory.read b a n :=
  Memory.read_congr _ _ _ _ _ fun _ _ => Memory.bit_append_of_lt more (by omega)

/-- A code word is read whatever bytes follow (R116). -/
theorem decodeAt_append {b : Memory} {a : Nat} {p : Form × Nat} (more : Memory) (h : decodeAt b a = .ok p) :
    decodeAt (b ++ more) a = .ok p := by
  obtain ⟨hd, hroom, hread⟩ := decodeAt_eq_ok.1 h
  refine decodeAt_eq_ok.2 ⟨hd, ?_, (Memory.read_append more hroom).trans hread⟩
  rw [List.length_append]
  omega

/-- A code word that loses its last bytes, but not its first eight bits, is cut short (R112). -/
theorem decodeAt_of_cut {b more : Memory} {a : Nat} {p : Form × Nat} (h : decodeAt (b ++ more) a = .ok p)
    (hwindow : a + 8 ≤ 8 * b.length) (hcut : 8 * b.length < a + Form.width p.1) :
    decodeAt b a = .error .truncated := by
  have hp8 := (Form.prefixBits_bounds p.1).2
  have hform : classify (BitVec.ofNat 8 (Memory.read b a (min 8 (8 * b.length - a)))) = p.1 := by
    refine classify_of_low _ p.1 ?_
    rw [BitVec.toNat_ofNat, Nat.min_eq_left (by omega), Nat.mod_eq_of_lt (Memory.read_lt b a 8), Memory.read_mod b a hp8,
      ← Memory.read_append more (by omega), read_prefixBits_of_decodeAt h]
  refine decodeAt_short (by omega) ?_
  rw [hform]
  omega

/-! ### The value read there, or the error -/

/-- The code word at bit `a`, where it is whole and stands for a value of the domain, else the error of R111, R112 or
R114. -/
def Memory.readCodeWord (b : Memory) (a : Nat) : Except ErrorKind (Form × Nat) :=
  match decodeAt b a with
  | .ok p => if maxValue < Form.base p.1 + p.2 then .error .range else .ok p
  | .error e => .error (streamError e)

theorem Memory.readCodeWord_eq_ok {b : Memory} {a : Nat} {p : Form × Nat} :
    Memory.readCodeWord b a = .ok p ↔ decodeAt b a = .ok p ∧ Form.base p.1 + p.2 ≤ maxValue := by
  unfold Memory.readCodeWord
  cases hread : decodeAt b a with
  | error e => simp
  | ok q =>
    by_cases hq : maxValue < Form.base q.1 + q.2
    · simp only [if_pos hq, reduceCtorEq, Except.ok.injEq, false_iff]
      rintro ⟨rfl, hle⟩
      exact absurd hq (Nat.not_lt.2 hle)
    · simp only [if_neg hq, Except.ok.injEq]
      exact ⟨fun h => ⟨h, h ▸ Nat.not_lt.1 hq⟩, And.left⟩

theorem Memory.readCodeWord_of_error {b : Memory} {a : Nat} {e : DecodeError} (h : decodeAt b a = .error e) :
    Memory.readCodeWord b a = .error (streamError e) := by
  rw [Memory.readCodeWord, h]

theorem Memory.readCodeWord_of_range {b : Memory} {a : Nat} {p : Form × Nat} (h : decodeAt b a = .ok p)
    (hover : maxValue < Form.base p.1 + p.2) : Memory.readCodeWord b a = .error .range := by
  simp only [Memory.readCodeWord, h, if_pos hover]

theorem width_le_rem_of_decodeAt {r : Reader} {p : Form × Nat} (h : decodeAt r.buf r.n = .ok p) :
    Form.width p.1 ≤ Reader.rem r := by
  obtain ⟨-, hroom, -⟩ := decodeAt_eq_ok.1 h
  unfold Reader.rem
  omega

/-- One pass of the loop that reads a code word: the reader moves past it and its value is appended (R110). -/
theorem decodePass_of_readCodeWord {r : Reader} {p : Form × Nat} (h : Memory.readCodeWord r.buf r.n = .ok p)
    (d : DecodeRecord) :
    decodePass r d = .ok (Reader.skip r (Form.width p.1), DecodeRecord.push d (Form.base p.1 + p.2)) := by
  obtain ⟨hread, hvalue⟩ := Memory.readCodeWord_eq_ok.1 h
  simp only [decodePass, hread]
  exact codeWordPass_ok.2 ⟨width_le_rem_of_decodeAt hread, hvalue, rfl, rfl⟩

/-- One pass of the loop that reads none: the error is that of the bits, whatever the record (R111 to R114). -/
theorem decodePass_of_readCodeWord_error {r : Reader} {e : ErrorKind} (h : Memory.readCodeWord r.buf r.n = .error e)
    (d : DecodeRecord) : decodePass r d = .error e := by
  unfold Memory.readCodeWord at h
  unfold decodePass
  split at h
  · rename_i p hread
    split at h
    · rename_i hover
      cases h
      simp only [hread]
      exact codeWordPass_error.2 (.inr (.inr ⟨width_le_rem_of_decodeAt hread, hover, rfl⟩))
    · cases h
  · rename_i k hread
    cases h
    simp only [hread]

/-! ### The code words a buffer begins with -/

/-- How many bits these code words take (30_encoding.md R65). -/
def codeLength (cws : List (Form × Nat)) : Nat := (cws.map fun p => Form.width p.1).sum

/-- The values these code words stand for, as 64-bit words (44_codec_decode.md R110). -/
def codeValues (cws : List (Form × Nat)) : List U64 := cws.map fun p => BitVec.ofNat 64 (Form.base p.1 + p.2)

@[simp] theorem codeLength_concat (cws : List (Form × Nat)) (p : Form × Nat) :
    codeLength (cws ++ [p]) = codeLength cws + Form.width p.1 := by
  simp [codeLength]

@[simp] theorem codeValues_concat (cws : List (Form × Nat)) (p : Form × Nat) :
    codeValues (cws ++ [p]) = codeValues cws ++ [BitVec.ofNat 64 (Form.base p.1 + p.2)] := by
  simp [codeValues]

@[simp] theorem codeValues_length (cws : List (Form × Nat)) : (codeValues cws).length = cws.length := by
  simp [codeValues]

theorem length_flatMap_codeBits (cws : List (Form × Nat)) :
    (cws.flatMap fun p => codeBits p.1 p.2).length = codeLength cws := by
  simp only [List.length_flatMap, codeLength]
  exact congrArg List.sum (List.map_congr_left fun p _ => fieldBits_length _ _)

/-- Whether these code words, each whole and with a value of the domain, stand one after another from the first bit of
the buffer (30_encoding.md R53). -/
inductive Memory.BeginsWith (b : Memory) : List (Form × Nat) → Prop where
  | nil : Memory.BeginsWith b []
  | concat (cws : List (Form × Nat)) (p : Form × Nat) (h : Memory.BeginsWith b cws)
      (hp : Memory.readCodeWord b (codeLength cws) = .ok p) : Memory.BeginsWith b (cws ++ [p])

/-- They end inside the buffer. -/
theorem Memory.BeginsWith.codeLength_le {b : Memory} {cws : List (Form × Nat)} (h : Memory.BeginsWith b cws) :
    codeLength cws ≤ 8 * b.length := by
  cases h with
  | nil => exact Nat.zero_le _
  | concat cws p _ hp =>
    obtain ⟨-, hroom, -⟩ := decodeAt_eq_ok.1 (Memory.readCodeWord_eq_ok.1 hp).1
    rwa [codeLength_concat]

/-- A code word takes at least two bits (R65). -/
theorem two_mul_length_le_codeLength (cws : List (Form × Nat)) : 2 * cws.length ≤ codeLength cws := by
  induction cws with
  | nil => exact le_rfl
  | cons p cws ih =>
    have hwidth := (Form.width_bounds p.1).1
    simp only [codeLength, List.map_cons, List.sum_cons, List.length_cons] at ih ⊢
    omega

/-- The last of them stands where the others end. -/
theorem Memory.BeginsWith.next {b : Memory} {cws : List (Form × Nat)} {p : Form × Nat}
    (h : Memory.BeginsWith b (cws ++ [p])) : Memory.readCodeWord b (codeLength cws) = .ok p := by
  generalize hl : cws ++ [p] = l at h
  cases h with
  | nil => exact absurd hl (by simp)
  | concat cws' p' _ hp =>
    obtain ⟨rfl, hlast⟩ := List.append_inj' hl rfl
    cases hlast
    exact hp

theorem Memory.BeginsWith.append {b : Memory} {cws : List (Form × Nat)} (h : Memory.BeginsWith b cws) (more : Memory) :
    Memory.BeginsWith (b ++ more) cws := by
  induction h with
  | nil => exact .nil
  | concat cws p _ hp ih =>
    obtain ⟨hread, hvalue⟩ := Memory.readCodeWord_eq_ok.1 hp
    exact .concat cws p ih (Memory.readCodeWord_eq_ok.2 ⟨decodeAt_append more hread, hvalue⟩)

theorem Memory.BeginsWith.of_prefix {b : Memory} {cws pre : List (Form × Nat)} (h : Memory.BeginsWith b cws)
    (hpre : pre <+: cws) : Memory.BeginsWith b pre := by
  induction h with
  | nil => exact List.prefix_nil.1 hpre ▸ .nil
  | concat cws p h hp ih =>
    rcases List.prefix_concat_iff.1 hpre with rfl | hshort
    · exact .concat cws p h hp
    · exact ih hshort

/-- Bits that come after others at the front of a buffer stand where those end. -/
theorem Memory.bit_of_prefix {b : Memory} {l : List Bool} {v n : Nat}
    (h : l ++ fieldBits v n <+: (List.range (8 * b.length)).map (Memory.bit b)) :
    l.length + n ≤ 8 * b.length ∧ ∀ i, i < n → Memory.bit b (l.length + i) = v.testBit i := by
  have hroom : l.length + n ≤ 8 * b.length := by
    simpa [fieldBits_length] using h.length_le
  refine ⟨hroom, fun i hi => ?_⟩
  rw [fieldBits_eq_map] at h
  have hbit := List.prefix_iff_getElem?.1 h (l.length + i) (by simp [hi])
  simpa [show l.length + i < 8 * b.length by omega, hi] using hbit

/-- Code words whose bits are the first of a buffer are the ones it begins with (R53, R64). -/
theorem Memory.beginsWith_of_bits {b : Memory} {cws : List (Form × Nat)}
    (hvalid : ∀ p ∈ cws, p.2 < 2 ^ Form.payloadBits p.1 ∧ Form.base p.1 + p.2 ≤ maxValue)
    (hbits : (cws.flatMap fun p => codeBits p.1 p.2) <+: (List.range (8 * b.length)).map (Memory.bit b)) :
    Memory.BeginsWith b cws := by
  induction cws using List.reverseRecOn with
  | nil => exact .nil
  | append_singleton cws p ih =>
    rw [List.flatMap_append, List.flatMap_singleton] at hbits
    obtain ⟨hd, hvalue⟩ := hvalid p (by simp)
    obtain ⟨hroom, hword⟩ := Memory.bit_of_prefix hbits
    rw [length_flatMap_codeBits] at hroom hword
    refine .concat cws p (ih (fun q hq => hvalid q (by simp [hq])) ((List.prefix_append _ _).trans hbits)) ?_
    exact Memory.readCodeWord_eq_ok.2 ⟨decodeAt_of_bits p.1 p.2 hd hroom hword, hvalue⟩

/-- Every buffer begins with `n` code words, or with fewer and then something that is none. -/
theorem Memory.exists_beginsWith (b : Memory) (n : Nat) :
    ∃ cws, Memory.BeginsWith b cws ∧
      (cws.length = n ∨ cws.length < n ∧ ∃ e, Memory.readCodeWord b (codeLength cws) = .error e) := by
  induction n with
  | zero => exact ⟨[], .nil, .inl rfl⟩
  | succ n ih =>
    obtain ⟨cws, h, hlen | ⟨hlen, hstuck⟩⟩ := ih
    · cases hnext : Memory.readCodeWord b (codeLength cws) with
      | ok p => exact ⟨cws ++ [p], .concat cws p h hnext, .inl (by simp [hlen])⟩
      | error e => exact ⟨cws, h, .inr ⟨by omega, e, hnext⟩⟩
    · exact ⟨cws, h, .inr ⟨by omega, hstuck⟩⟩

end Sys2Proof.Machine
end

section
/-! CODEC.DECODE (44_codec_decode.md R110 to R118). After each pass of a call the reader and the record are told by the
code words read so far; so a call ends with COUNT values where the bytes begin with that many code words, and otherwise
with the error of the first that is missing. -/

namespace Sys2Proof.Machine

open Sys2Proof

/-! ### A call in progress -/

/-- The decode record of a call once these code words have been read (R110). -/
def recordAfter (count : BitVec 64) (cws : List (Form × Nat)) : DecodeRecord :=
  { state := if cws.length = count.toNat then .done else .awaitingValue, count := count, out := codeValues cws }

/-- The reader of a call once these code words have been read (R110). -/
def readerAfter (b : Memory) (cws : List (Form × Nat)) : Reader := { buf := b, n := codeLength cws }

theorem recordAfter_nil (count : BitVec 64) : recordAfter count [] = DecodeRecord.start count := by
  have hzero : ([] : List (Form × Nat)).length = count.toNat ↔ count = 0 := by
    rw [← BitVec.toNat_inj, eq_comm]
    rfl
  simp only [recordAfter, DecodeRecord.start, hzero, codeValues, List.map_nil]

theorem readerAfter_nil (b : Memory) : readerAfter b [] = Reader.over b := rfl

theorem recordAfter_of_length_eq {count : BitVec 64} {cws : List (Form × Nat)} (h : cws.length = count.toNat) :
    recordAfter count cws = { state := .done, count := count, out := codeValues cws } := by
  rw [recordAfter, if_pos h]

theorem recordAfter_state {count : BitVec 64} {cws : List (Form × Nat)} (h : cws.length < count.toNat) :
    (recordAfter count cws).state = .awaitingValue :=
  if_neg (Nat.ne_of_lt h)

theorem push_recordAfter {count : BitVec 64} {cws : List (Form × Nat)} (p : Form × Nat) (h : cws.length < count.toNat) :
    DecodeRecord.push (recordAfter count cws) (Form.base p.1 + p.2) = recordAfter count (cws ++ [p]) := by
  simp only [DecodeRecord.push, recordAfter_state h]
  simp [recordAfter]

theorem skip_readerAfter (b : Memory) (cws : List (Form × Nat)) (p : Form × Nat) :
    Reader.skip (readerAfter b cws) (Form.width p.1) = readerAfter b (cws ++ [p]) := by
  simp [readerAfter, Reader.skip]

/-- A pass of the call reads the next code word (R110). -/
theorem decodePass_readerAfter {b : Memory} {count : BitVec 64} {cws : List (Form × Nat)} {p : Form × Nat}
    (hp : Memory.readCodeWord b (codeLength cws) = .ok p) (hcount : cws.length < count.toNat) :
    decodePass (readerAfter b cws) (recordAfter count cws) =
      .ok (readerAfter b (cws ++ [p]), recordAfter count (cws ++ [p])) := by
  rw [decodePass_of_readCodeWord (r := readerAfter b cws) hp, skip_readerAfter, push_recordAfter p hcount]

/-! ### The loop of CODEC.DECODE -/

/-- The loop reads the code words one a pass (R115). -/
theorem decodeLoop_of_beginsWith {b : Memory} {cws : List (Form × Nat)} {count : BitVec 64}
    (h : Memory.BeginsWith b cws) (hcount : cws.length ≤ count.toNat) (fuel : Nat) :
    decodeLoop (cws.length + fuel) (Reader.over b) (DecodeRecord.start count) =
      decodeLoop fuel (readerAfter b cws) (recordAfter count cws) := by
  induction h generalizing fuel with
  | nil => rw [recordAfter_nil, readerAfter_nil, List.length_nil, Nat.zero_add]
  | concat cws p _ hp ih =>
    rw [List.length_append, List.length_singleton] at hcount ⊢
    rw [Nat.add_assoc, Nat.add_comm 1, ih (by omega),
      decodeLoop_ok_pass (recordAfter_state hcount) (decodePass_readerAfter hp hcount)]

/-- The passes CODEC.DECODE may take are more than the code words there can be (70_reset_and_hazards.md R157). -/
theorem length_lt_decodePasses {b : Memory} {cws : List (Form × Nat)} {count : BitVec 64}
    (h : Memory.BeginsWith b cws) (hcount : cws.length ≤ count.toNat) : cws.length < decodePasses count b := by
  have hbits := h.codeLength_le
  have hwidths := two_mul_length_le_codeLength cws
  unfold decodePasses
  omega

/-- The call succeeds where the bytes begin with COUNT code words (R115). -/
theorem decodeRun_of_beginsWith {b : Memory} {cws : List (Form × Nat)} {count : BitVec 64}
    (h : Memory.BeginsWith b cws) (hcount : cws.length = count.toNat) :
    decodeRun b count = .ok (readerAfter b cws, { state := .done, count := count, out := codeValues cws }) := by
  obtain ⟨fuel, hfuel⟩ := Nat.exists_eq_add_of_le (length_lt_decodePasses h hcount.le).le
  rw [decodeRun, hfuel, decodeLoop_of_beginsWith h hcount.le, recordAfter_of_length_eq hcount, decodeLoop_done rfl]

/-- The call fails where fewer than COUNT code words are followed by something that is none, and with its error (R111
to R114). -/
theorem decodeRun_of_stuck {b : Memory} {cws : List (Form × Nat)} {count : BitVec 64} {e : ErrorKind}
    (h : Memory.BeginsWith b cws) (hcount : cws.length < count.toNat)
    (hnext : Memory.readCodeWord b (codeLength cws) = .error e) : decodeRun b count = .error e := by
  obtain ⟨fuel, hfuel⟩ := Nat.exists_eq_add_of_le (length_lt_decodePasses h hcount.le)
  rw [decodeRun, hfuel, Nat.succ_eq_add_one, Nat.add_assoc, Nat.add_comm 1, decodeLoop_of_beginsWith h hcount.le,
    decodeLoop_error_pass (recordAfter_state hcount) (decodePass_of_readCodeWord_error (r := readerAfter b cws) hnext _)]

/-- All that the loop of a call can do: there are COUNT code words, or it fails at the first that is none. -/
theorem decodeRun_cases (b : Memory) (count : BitVec 64) :
    ∃ cws, Memory.BeginsWith b cws ∧
      (cws.length = count.toNat ∨
        cws.length < count.toNat ∧ ∃ e, Memory.readCodeWord b (codeLength cws) = .error e ∧
          decodeRun b count = .error e) := by
  obtain ⟨cws, h, hlen | ⟨hlen, e, hnext⟩⟩ := Memory.exists_beginsWith b count.toNat
  · exact ⟨cws, h, .inl hlen⟩
  · exact ⟨cws, h, .inr ⟨hlen, e, hnext, decodeRun_of_stuck h hlen hnext⟩⟩

theorem decodeRun_error_kind {b : Memory} {count : BitVec 64} {e : ErrorKind} (h : decodeRun b count = .error e) :
    e = .overRequest ∨ e = .truncatedInput ∨ e = .range :=
  decodeLoop_error_kind h

/-! ### The operation -/

/-- CODEC.DECODE of bytes that begin with COUNT code words (R115). -/
theorem exec_codecDecode_of_beginsWith {s : State} {cws : List (Form × Nat)}
    (h : Memory.BeginsWith s.args.bytesIn cws) (hcount : cws.length = s.args.count.toNat) :
    exec .codecDecode s =
      .next { s with
        r := .absent, status := .ok
        d := { state := .done, count := s.args.count, out := codeValues cws }
        resp := { Response.bare 0 with valuesOut := some (codeValues cws) } } :=
  exec_codecDecode_of_ok (decodeRun_of_beginsWith h hcount)

/-- CODEC.DECODE of bytes that do not (R111 to R114, 60_exceptions.md R130). -/
theorem exec_codecDecode_of_stuck {s : State} {cws : List (Form × Nat)} {e : ErrorKind}
    (h : Memory.BeginsWith s.args.bytesIn cws) (hcount : cws.length < s.args.count.toNat)
    (hnext : Memory.readCodeWord s.args.bytesIn (codeLength cws) = .error e) :
    exec .codecDecode s = .next (raise e (startDecode s)) :=
  exec_codecDecode_of_error (decodeRun_of_stuck h hcount hnext)

/-- Settles O33: code words whose bits come first are the ones the buffer begins with. -/
theorem decodeAnswersItsCodeWords : Obligations.DecodeAnswersItsCodeWords := fun _ _ hvalid hcount hbits =>
  exec_codecDecode_of_beginsWith (Memory.beginsWith_of_bits hvalid hbits) hcount

/-- Settles O34: what stands after the whole code words is none, for each of the three reasons. -/
theorem decodeFailsAtTheFirstBadCodeWord : Obligations.DecodeFailsAtTheFirstBadCodeWord := by
  intro s cws at_ left hvalid hcount hbits hat hleft
  have h := Memory.beginsWith_of_bits hvalid hbits
  rw [length_flatMap_codeBits] at hat
  subst hat hleft
  refine ⟨fun hend => ?_, fun hsome hfew => ?_, fun d hroom hd hbig hread => ?_⟩
  · have hnone := decodeAt_atEnd (Nat.sub_eq_zero_iff_le.1 hend)
    exact ⟨_, exec_codecDecode_of_stuck h hcount (Memory.readCodeWord_of_error hnone), rfl, rfl⟩
  · have hcut := decodeAt_short hsome hfew
    exact ⟨_, exec_codecDecode_of_stuck h hcount (Memory.readCodeWord_of_error hcut), rfl, rfl⟩
  · have hword : decodeAt s.args.bytesIn (codeLength cws) = .ok (.raw .n7, d) :=
      decodeAt_eq_ok.2 ⟨hd, by show _ + 72 ≤ _; omega, hread⟩
    have hover := (maxValue_lt_base_add_iff (f := .raw .n7) hd).2 ⟨rfl, hbig⟩
    exact ⟨_, exec_codecDecode_of_stuck h hcount (Memory.readCodeWord_of_range hword hover), rfl, rfl⟩

/-- Settles O35, from all that the loop can do. -/
theorem decodeAnswersCountValuesOrAnError : Obligations.DecodeAnswersCountValuesOrAnError := by
  intro s
  obtain ⟨cws, h, hcount | ⟨-, e, -, hrun⟩⟩ := decodeRun_cases s.args.bytesIn s.args.count
  · exact ⟨_, exec_codecDecode_of_beginsWith h hcount, .inl ⟨rfl, _, (codeValues_length cws).trans hcount, rfl⟩⟩
  · exact ⟨_, exec_codecDecode_of_error hrun,
      .inr ⟨e, decodeRun_error_kind hrun, rfl, rfl, rfl, rfl, rfl, rfl⟩⟩

/-! ### The call pass by pass -/

/-- A pass of the call seen alone is a pass of the loop (R110). -/
theorem callStep_of_decodePass {s : State} {c r' : Reader} {d' : DecodeRecord} (hc : callReader s = some c)
    (hpass : decodePass c s.d = .ok (r', d')) : callStep s = .next { s with r := .live r', d := d' } := by
  unfold decodePass at hpass
  simp only [callStep, hc]
  cases hread : decodeAt c.buf c.n with
  | ok p =>
    rw [hread] at hpass
    exact (exec_codeWordInstr p.1 p.2 s).trans (codeWord_of_pass hc hpass)
  | error k =>
    rw [hread] at hpass
    cases hpass

/-- A pass that fails in the loop raises its error here (R111 to R114). -/
theorem callStep_of_decodePass_error {s : State} {c : Reader} {e : ErrorKind} (hc : callReader s = some c)
    (hpass : decodePass c s.d = .error e) : callStep s = .next (raise e s) := by
  unfold decodePass at hpass
  simp only [callStep, hc]
  cases hread : decodeAt c.buf c.n with
  | ok p =>
    rw [hread] at hpass
    exact (exec_codeWordInstr p.1 p.2 s).trans (codeWord_of_error hc hpass)
  | error k =>
    rw [hread] at hpass
    cases hpass
    rfl

/-- One more pass at the end. -/
theorem callSteps_succ_of_next {k : Nat} {s t : State} (h : callSteps k s = .next t) :
    callSteps (k + 1) s = callStep t := by
  induction k generalizing s with
  | zero =>
    obtain rfl : s = t := by simpa [callSteps] using h
    rw [callSteps]
    cases callStep s <;> rfl
  | succ k ih =>
    rw [callSteps] at h ⊢
    cases hstep : callStep s with
    | next u =>
      rw [hstep] at h
      exact ih h
    | fault e => rw [hstep] at h; cases h
    | refused e => rw [hstep] at h; cases h

/-- The machine inside CODEC.DECODE, once these code words have been read. -/
def stateAfter (s : State) (cws : List (Form × Nat)) : State :=
  { startDecode s with r := .live (readerAfter s.args.bytesIn cws), d := recordAfter s.args.count cws }

theorem callReader_stateAfter {s : State} {cws : List (Form × Nat)} (h : cws.length < s.args.count.toNat) :
    callReader (stateAfter s cws) = some (readerAfter s.args.bytesIn cws) :=
  callReader_eq_some.2 ⟨rfl, rfl, recordAfter_state h⟩

/-- As many passes as there are code words read them. -/
theorem callSteps_of_beginsWith {s : State} {cws : List (Form × Nat)} (h : Memory.BeginsWith s.args.bytesIn cws)
    (hcount : cws.length ≤ s.args.count.toNat) : callSteps cws.length (startDecode s) = .next (stateAfter s cws) := by
  induction h with
  | nil =>
    rw [stateAfter, recordAfter_nil]
    rfl
  | concat cws p _ hp ih =>
    rw [List.length_append, List.length_singleton] at hcount ⊢
    rw [callSteps_succ_of_next (ih (by omega)),
      callStep_of_decodePass (callReader_stateAfter hcount) (decodePass_readerAfter hp hcount)]
    rfl

/-- An error raised inside the call leaves what CODEC.DECODE leaves: reader and values are unspecified (R130). -/
theorem raise_stateAfter {s : State} {cws : List (Form × Nat)} {e : ErrorKind} (hcount : cws.length < s.args.count.toNat)
    (he : e = .overRequest ∨ e = .truncatedInput ∨ e = .range) :
    raise e (stateAfter s cws) = raise e (startDecode s) := by
  have hstart : (startDecode s).d.state = .awaitingValue := by
    rw [startDecode_d, ← recordAfter_nil]
    exact recordAfter_state (Nat.lt_of_le_of_lt (Nat.zero_le _) hcount)
  have hrecord : { (stateAfter s cws).d with out := Config.freeDecodeOut s.free } =
      { (startDecode s).d with out := Config.freeDecodeOut s.free } :=
    congrArg (DecodeRecord.mk · s.args.count (Config.freeDecodeOut s.free))
      ((recordAfter_state hcount).trans hstart.symm)
  have hreader : Slot.readerAfter e s.free (stateAfter s cws).r = Slot.readerAfter e s.free (startDecode s).r := by
    rcases he with rfl | rfl | rfl <;> rfl
  exact congrArg₂ (fun r d => { raise e (startDecode s) with r := r, d := d }) hreader hrecord

/-- Settles O43: one pass per code word, and one more where the next is none, which raises its error. -/
theorem decodeIsItsPasses : Obligations.DecodeIsItsPasses := by
  intro s
  obtain ⟨cws, h, hcount | ⟨hcount, e, hnext, hrun⟩⟩ := decodeRun_cases s.args.bytesIn s.args.count
  · have hpasses : cws.length < decodePasses s.args.count s.args.bytesIn := length_lt_decodePasses h hcount.le
    refine ⟨cws.length, stateAfter s cws, hpasses.le, callSteps_of_beginsWith h hcount.le, fun _ => ?_,
      fun hfault => absurd rfl hfault⟩
    have hrecord : (stateAfter s cws).d = { state := .done, count := s.args.count, out := codeValues cws } :=
      recordAfter_of_length_eq hcount
    refine ⟨congrArg DecodeRecord.state hrecord, ?_⟩
    rw [exec_codecDecode_of_beginsWith h hcount, stateAfter, recordAfter_of_length_eq hcount]
    rfl
  · have hraise := raise_stateAfter hcount (decodeRun_error_kind hrun)
    refine ⟨cws.length + 1, raise e (startDecode s), length_lt_decodePasses h hcount.le, ?_, nofun,
      fun _ => exec_codecDecode_of_error hrun⟩
    rw [callSteps_succ_of_next (callSteps_of_beginsWith h hcount.le),
      callStep_of_decodePass_error (callReader_stateAfter hcount) (decodePass_of_readCodeWord_error hnext _), hraise]

/-! ### The bytes after the wanted values -/

theorem toNat_count {c : Nat} (h : c < 2 ^ 64) : (BitVec.ofNat 64 c).toNat = c := Nat.mod_eq_of_lt h

/-- `CODEC.DECODE b, c` from any state, where `b` begins with `c` code words. -/
theorem call_reqDecode_of_beginsWith {b : List Byte} {cws : List (Form × Nat)} (h : Memory.BeginsWith b cws)
    (hcount : cws.length < 2 ^ 64) (s : State) :
    ∃ t, call (reqDecode b cws.length) s = .next t ∧ t.status = .ok ∧
      t.resp = { Response.bare 0 with valuesOut := some (codeValues cws) } :=
  ⟨_, exec_codecDecode_of_beginsWith (s := State.load s (reqDecode b cws.length) []) h (toNat_count hcount).symm,
    rfl, rfl⟩

/-- `CODEC.DECODE b, c` from any state, where `b` begins with fewer. -/
theorem call_reqDecode_of_stuck {b : List Byte} {c : Nat} {cws : List (Form × Nat)} {e : ErrorKind}
    (h : Memory.BeginsWith b cws) (hc : c < 2 ^ 64) (hcount : cws.length < c)
    (hnext : Memory.readCodeWord b (codeLength cws) = .error e) (s : State) :
    ∃ t, call (reqDecode b c) s = .next t ∧ t.status = .fault e ∧ t.resp = Response.bare (ErrorKind.code e) :=
  ⟨_, exec_codecDecode_of_stuck (s := State.load s (reqDecode b c) []) h (by rwa [← toNat_count hc] at hcount) hnext,
    rfl, rfl⟩

/-- Settles O37: the code words read are still there with bytes after them, and so are the first of them. -/
theorem decodeIgnoresWhatFollows : Obligations.DecodeIgnoresWhatFollows := by
  intro s s' b more c c' t vs hc hle hcall hvalues
  obtain ⟨cws, h, hcount | ⟨hcount, e, hnext, -⟩⟩ := decodeRun_cases b (BitVec.ofNat 64 c)
  · rw [toNat_count hc] at hcount
    subst hcount
    obtain ⟨u, hu, -, hresp⟩ := call_reqDecode_of_beginsWith h hc s
    cases hcall.symm.trans hu
    rw [hresp] at hvalues
    cases hvalues
    have hlen : (cws.take c').length = c' := List.length_take_of_le hle
    obtain ⟨t', ht', -, hresp'⟩ := call_reqDecode_of_beginsWith (cws := cws.take c')
      ((h.of_prefix (List.take_prefix c' cws)).append more) (by omega) s'
    rw [hlen] at ht'
    refine ⟨t', ht', hresp'.trans ?_⟩
    rw [codeValues, codeValues, List.map_take]
  · rw [toNat_count hc] at hcount
    obtain ⟨u, hu, -, hresp⟩ := call_reqDecode_of_stuck h hc hcount hnext s
    cases hcall.symm.trans hu
    rw [hresp] at hvalues
    cases hvalues

end Sys2Proof.Machine
end

section
/-! CODEC.DECODE of what CODEC.ENCODE answers (44_codec_decode.md R112, R118, R119): the buffer begins with the code
words of the values, and with as many more of value 0 as its zero padding has pairs of bits. -/

namespace Sys2Proof.Machine

open Sys2Proof

/-! ### The encoder's code words -/

/-- The code word the encoder gives a value (43_codec_encode.md R102); outside the domain it gives none, and this is that
of 0. -/
def encoderWord (v : Int) : Form × Nat :=
  match selectForm v with
  | .ok ev => (ev.form, ev.adj)
  | .error _ => (.reg .f1, 0)

theorem encoderWord_spec {v : Int} (h : InDomain v) :
    (encoderWord v).2 < 2 ^ Form.payloadBits (encoderWord v).1 ∧
      ((Form.base (encoderWord v).1 + (encoderWord v).2 : Nat) : Int) = v ∧
      valueBits v = codeBits (encoderWord v).1 (encoderWord v).2 := by
  rcases selectForm_cases v with ⟨hout, -⟩ | ⟨-, f, adj, hselect, hadj, hvalue⟩
  · obtain ⟨h0, hmax⟩ := h
    omega
  · simp only [encoderWord, valueBits, hselect]
    exact ⟨hadj, hvalue, trivial⟩

theorem encoderWord_base_add_le {v : Int} (h : InDomain v) :
    Form.base (encoderWord v).1 + (encoderWord v).2 ≤ maxValue := by
  obtain ⟨-, hvalue, -⟩ := encoderWord_spec h
  obtain ⟨-, hmax⟩ := h
  omega

theorem flatMap_encoderWord_bits {a : List Int} (h : ∀ v ∈ a, InDomain v) :
    ((a.map encoderWord).flatMap fun p => codeBits p.1 p.2) = a.flatMap valueBits := by
  rw [List.flatMap_map]
  exact List.flatMap_congr fun v hv => (encoderWord_spec (h v hv)).2.2.symm

/-- Decoding the encoder's code words gives the values (R118). -/
theorem codeValues_encoderWord {a : List Int} (h : ∀ v ∈ a, InDomain v) :
    codeValues (a.map encoderWord) = a.map (BitVec.ofInt 64) := by
  rw [codeValues, List.map_map]
  refine List.map_congr_left fun v hv => ?_
  obtain ⟨-, hvalue, -⟩ := encoderWord_spec (h v hv)
  exact (BitVec.ofInt_natCast 64 _).symm.trans (congrArg (BitVec.ofInt 64) hvalue)

theorem toNat_ofInt_of_inDomain {v : Int} (h : InDomain v) : ((BitVec.ofInt 64 v).toNat : Int) = v := by
  obtain ⟨h0, hmax⟩ := h
  unfold maxValue at hmax
  rw [BitVec.toNat_ofInt]
  omega

theorem codeLength_encoderWord {a : List Int} (h : ∀ v ∈ a, InDomain v) :
    codeLength (a.map encoderWord) = (a.map valueWidth).sum := by
  rw [← length_flatMap_codeBits, flatMap_encoderWord_bits h, length_flatMap_valueBits]

/-! ### The bytes CODEC.ENCODE answers -/

theorem inDomain_append_zeros {a : List Int} (h : ∀ v ∈ a, InDomain v) (k : Nat) :
    ∀ v ∈ a ++ List.replicate k 0, InDomain v := by
  intro v hv
  rcases List.mem_append.1 hv with hv | hv
  · exact h v hv
  · rw [List.eq_of_mem_replicate hv]
    exact ⟨le_rfl, by decide⟩

/-- The code word of 0 is two zero bits (30_encoding.md R55). -/
theorem flatMap_valueBits_zeros (k : Nat) :
    (List.replicate k (0 : Int)).flatMap valueBits = List.replicate (2 * k) false := by
  induction k with
  | zero => rfl
  | succ k ih =>
    rw [List.replicate_succ, List.flatMap_cons, ih]
    rfl

/-- CODEC.ENCODE answers bytes that begin with the code words of the values, and after them with code words of 0 as far
as the padding goes (43_codec_encode.md R104, 44_codec_decode.md R119). -/
theorem call_reqEncode_beginsWith {a : List Int} (h : ∀ v ∈ a, InDomain v) (s : State) :
    ∃ (t : State) (bytes : List Byte),
      call (reqEncode a) s = .next t ∧ t.resp = { Response.bare 0 with bytesOut := some bytes } ∧
      bytes.length = encodedLength a ∧
      ∀ k, 2 * k ≤ 8 * encodedLength a - (a.map valueWidth).sum →
        Memory.BeginsWith bytes ((a ++ List.replicate k 0).map encoderWord) := by
  obtain ⟨w, hloop, hwf, hbits, hnbits, hlength⟩ := encodeLoop_inDomain h
  refine ⟨_, w.buf, call_reqEncode hloop s, rfl, hlength, fun k hk => ?_⟩
  have hdomain := inDomain_append_zeros h k
  refine Memory.beginsWith_of_bits (fun p hp => ?_) ?_
  · obtain ⟨v, hv, rfl⟩ := List.mem_map.1 hp
    exact ⟨(encoderWord_spec (hdomain v hv)).1, encoderWord_base_add_le (hdomain v hv)⟩
  · rw [flatMap_encoderWord_bits hdomain, Writer.map_bit_buf hwf, hbits, hnbits, hlength, List.flatMap_append,
      flatMap_valueBits_zeros]
    obtain ⟨rest, hrest⟩ := Nat.exists_eq_add_of_le hk
    rw [hrest, List.replicate_add]
    exact ⟨_, List.append_assoc _ _ _⟩

/-! ### The obligations -/

/-- Settles O38: the bytes begin with the code words of the values, which CODEC.DECODE answers. -/
theorem decodeOfEncodeIsIdentity : Obligations.DecodeOfEncodeIsIdentity := by
  intro s s' a ha hlen
  obtain ⟨t, bytes, hencode, hbytes, -, hbegins⟩ := call_reqEncode_beginsWith ha s
  have hwords : Memory.BeginsWith bytes (a.map encoderWord) := by simpa using hbegins 0 (Nat.zero_le _)
  obtain ⟨t', hdecode, hok, hvalues⟩ := call_reqDecode_of_beginsWith hwords (by simpa using hlen) s'
  rw [List.length_map] at hdecode
  refine ⟨t, t', bytes, _, hencode, hbytes, hdecode, hok, hvalues, ?_⟩
  rw [codeValues_encoderWord ha, List.map_map]
  exact (List.map_congr_left fun v hv => toNat_ofInt_of_inDomain (ha v hv)).trans (List.map_id a)

theorem sum_valueWidth_even {a : List Int} (h : ∀ v ∈ a, InDomain v) : (a.map valueWidth).sum % 2 = 0 := by
  rw [← codeLength_encoderWord h]
  refine Nat.mod_eq_zero_of_dvd (List.dvd_sum fun n hn => ?_)
  obtain ⟨p, -, rfl⟩ := List.mem_map.1 hn
  exact Nat.dvd_of_mod_eq_zero (Form.width_bounds p.1).2.2

/-- Settles O39: up to half the padding there are code words of 0; they take all of it, since every width is even, and
then no bit is left. -/
theorem overRequestReadsThePadding : Obligations.OverRequestReadsThePadding := by
  intro s s' a j pad ha hj hlen hpad
  obtain ⟨t, bytes, hencode, hbytes, hlength, hbegins⟩ := call_reqEncode_beginsWith ha s
  have hrest : 8 * encodedLength a - (a.map valueWidth).sum = pad := by
    rw [encodedLength]
    omega
  rw [hrest] at hbegins
  rcases Nat.lt_or_ge (pad / 2) j with hover | hin
  · have hdomain := inDomain_append_zeros ha (pad / 2)
    have hwords := hbegins (pad / 2) (by omega)
    have hend : 8 * bytes.length ≤ codeLength ((a ++ List.replicate (pad / 2) 0).map encoderWord) := by
      have heven := sum_valueWidth_even ha
      rw [codeLength_encoderWord hdomain, ← length_flatMap_valueBits, List.flatMap_append, flatMap_valueBits_zeros,
        List.length_append, length_flatMap_valueBits, List.length_replicate, hlength]
      omega
    obtain ⟨t', hdecode, hfault, hresp⟩ := call_reqDecode_of_stuck hwords hlen (by simpa using hover)
      (Memory.readCodeWord_of_error (decodeAt_atEnd hend)) s'
    exact ⟨t, t', bytes, hencode, hbytes, hdecode, fun hin => absurd hover (Nat.not_lt.2 hin), fun _ => ⟨hfault, hresp⟩⟩
  · have hwords := hbegins j (by omega)
    obtain ⟨t', hdecode, -, hvalues⟩ := call_reqDecode_of_beginsWith hwords (by simpa using hlen) s'
    rw [codeValues_encoderWord (inDomain_append_zeros ha j)] at hvalues
    refine ⟨t, t', bytes, hencode, hbytes, ?_, fun _ => hvalues, fun hover => absurd hover (Nat.not_lt.2 hin)⟩
    simpa using hdecode

/-- Settles O40: the first of at least two bytes still names the form, and without the last byte its code word does not
fit. -/
theorem truncatedEncodingFails : Obligations.TruncatedEncodingFails := by
  intro s s' v t bytes hv hencode hbytes hmany
  have hdomain : ∀ u ∈ [v], InDomain u := List.forall_mem_singleton.2 hv
  obtain ⟨u, b, hu, hb, hlength, hbegins⟩ := call_reqEncode_beginsWith hdomain s
  cases hencode.symm.trans hu
  rw [hb] at hbytes
  cases hbytes
  have hwidth : Form.width (encoderWord v).1 = ([v].map valueWidth).sum := codeLength_encoderWord hdomain
  rw [encodedLength, ← hwidth] at hlength
  have hne : bytes ≠ [] := List.ne_nil_of_length_pos (Nat.zero_lt_of_lt hmany)
  have hread : Memory.readCodeWord bytes 0 = .ok (encoderWord v) := (hbegins 0 (Nat.zero_le _)).next (cws := [])
  obtain ⟨hword, -⟩ := Memory.readCodeWord_eq_ok.1 hread
  rw [← List.dropLast_append_getLast hne] at hword
  have hcut : decodeAt bytes.dropLast 0 = .error .truncated :=
    decodeAt_of_cut hword (by rw [List.length_dropLast]; omega) (by rw [List.length_dropLast]; omega)
  exact call_reqDecode_of_stuck .nil (by decide) (by decide) (Memory.readCodeWord_of_error hcut) s'

end Sys2Proof.Machine
end

section
/-! Taking an error and being rejected (60_exceptions.md R127, R129, R130, R134): what `raise` leaves of the two places,
and when an operation on a cursor is rejected. -/

namespace Sys2Proof.Machine

open Sys2Proof

/-! ### Taking an error -/

/-- Raising an error neither makes a writer nor takes one away (R130). -/
theorem writerAfter_eq_absent_iff {e : ErrorKind} {k : Nat} {w : Slot Writer} :
    Slot.writerAfter e k w = .absent ↔ w = .absent := by
  cases w with
  | absent => exact iff_of_true rfl rfl
  | live c | dead c =>
    simp only [Slot.writerAfter]
    split <;> exact iff_of_false nofun nofun

/-- As for the writer (R130). -/
theorem readerAfter_eq_absent_iff {e : ErrorKind} {k : Nat} {r : Slot Reader} :
    Slot.readerAfter e k r = .absent ↔ r = .absent := by
  cases r with
  | absent => exact iff_of_true rfl rfl
  | live c | dead c =>
    simp only [Slot.readerAfter]
    split <;> exact iff_of_false nofun nofun

/-- The status codes tell the statuses apart (R127). -/
theorem Status.ofCode_code (st : Status) : Status.ofCode (Status.code st) = some st := by
  cases st with
  | ok => rfl
  | fault e => cases e <;> rfl

/-- Settles O51: the fields of `raise` one by one, then the table of codes. -/
theorem raiseTakesTheError : Obligations.RaiseTakesTheError := by
  refine ⟨fun e s => ?_, rfl, Status.ofCode_code, rfl⟩
  obtain ⟨hw, hr⟩ := raise_not_live e s
  exact ⟨rfl, rfl, hw, hr, writerAfter_eq_absent_iff, readerAfter_eq_absent_iff, rfl, rfl, rfl, rfl, rfl⟩

/-! ### Rejections -/

theorem Slot.usable_eq_none {α : Type} {k : Slot α} (h : Slot.isLive k = false) : Slot.usable k = none := by
  cases k with
  | live c => cases h
  | absent | dead c => rfl

/-- An operation may use the writer that is live in its place, and only with STATUS OK (R134). -/
theorem usableWriter_eq (s : State) : usableWriter s = if s.status = .ok then Slot.usable s.w else none := by
  unfold usableWriter Slot.usable
  cases s.status <;> cases s.w <;> rfl

/-- As for the writer (R134). -/
theorem usableReader_eq (s : State) : usableReader s = if s.status = .ok then Slot.usable s.r else none := by
  unfold usableReader Slot.usable
  cases s.status <;> cases s.r <;> rfl

/-- Whatever the operation and its operands (R129). -/
theorem onWriter_rejected {s : State} (k : Writer → State) (h : s.status ≠ .ok ∨ Slot.isLive s.w = false) :
    onWriter s k = .next (reject s) := by
  have hnone : usableWriter s = none := by
    rw [usableWriter_eq]
    rcases h with hfault | hdead
    · exact if_neg hfault
    · rw [Slot.usable_eq_none hdead, ite_self]
  rw [onWriter, hnone]

/-- As for the writer (R129). -/
theorem onReader_rejected {s : State} (k : Reader → State) (h : s.status ≠ .ok ∨ Slot.isLive s.r = false) :
    onReader s k = .next (reject s) := by
  have hnone : usableReader s = none := by
    rw [usableReader_eq]
    rcases h with hfault | hdead
    · exact if_neg hfault
    · rw [Slot.usable_eq_none hdead, ite_self]
  rw [onReader, hnone]

/-- Settles O52: the four are operations on a cursor, which test it first. -/
theorem unusableCursorIsRejected : Obligations.UnusableCursorIsRejected :=
  fun _ =>
    ⟨fun h => ⟨onWriter_rejected _ h, onWriter_rejected _ h⟩, fun h => ⟨onReader_rejected _ h, onReader_rejected _ h⟩⟩

end Sys2Proof.Machine
end

section
/-! Leaving a fault (60_exceptions.md R134): an instruction that creates no cursor leaves a fault state in a fault. -/

namespace Sys2Proof.Machine

open Sys2Proof

section
variable {s t : State} (hs : s.status ≠ .ok)
include hs

theorem onWriter_keeps_fault {k : Writer → State} (h : onWriter s k = .next t) : t.status ≠ .ok := by
  rw [onWriter_rejected k (.inl hs)] at h
  cases h
  exact hs

theorem onReader_keeps_fault {k : Reader → State} (h : onReader s k = .next t) : t.status ≠ .ok := by
  rw [onReader_rejected k (.inl hs)] at h
  cases h
  exact hs

/-- A lookup is accepted, and keeps STATUS whether or not it finds a form (R134; log 11). -/
theorem ftSelect_keeps_fault (h : exec .ftSelect s = .next t) : t.status ≠ .ok := by
  cases hsel : selectForm s.args.value with
  | ok ev =>
    rw [exec_ftSelect_of_ok hsel] at h
    cases h
    exact hs
  | error e =>
    rw [exec_ftSelect_of_error hsel, raiseFromOk_of_fault e hs] at h
    cases h
    exact hs

theorem codeWord_keeps_fault {f : Form} {x : Nat} (h : codeWord f x s = .next t) : t.status ≠ .ok := by
  rw [← exec_codeWordInstr, codeWordsOutsideACallDoNothing s f x (.inl hs)] at h
  cases h
  exact hs

end

/-- Settles O53, instruction by instruction: the others are rejected, or keep STATUS, or raise. -/
theorem onlyCursorCreationLeavesAFault : Obligations.OnlyCursorCreationLeavesAFault := by
  intro i s t h hs ht
  cases i with
  | bwNew => exact .inl rfl
  | brNew => exact .inr (.inl rfl)
  | codecEncode => exact .inr (.inr (.inl rfl))
  | codecDecode => exact .inr (.inr (.inr rfl))
  | bwEmit | bwFinalize => exact absurd ht (onWriter_keeps_fault hs h)
  | brPeek | brReadBits => exact absurd ht (onReader_keeps_fault hs h)
  | ftSelect => exact absurd ht (ftSelect_keeps_fault hs h)
  | ftClassify =>
    cases h
    exact absurd ht hs
  | reservedA | reservedB | reservedC | reservedD | reservedE | reservedF =>
    cases h
    cases ht
  | cwF1 d | cwF2 d | cwF3 d | cwF4 d | cwF5 d | cwF6 d | cwF7 d
  | cwRawN2 d | cwRawN3 d | cwRawN4 d | cwRawN5 d | cwRawN6 d | cwRawN7 d =>
    exact absurd ht (codeWord_keeps_fault hs h)

end Sys2Proof.Machine
end

section
/-! What a fault left unspecified is never seen (60_exceptions.md R130). Two states with the same STATUS and the same
usable cursors, given the same operands, answer alike and are again two such states; so a host that makes the same
requests of both sees the same responses. -/

namespace Sys2Proof.Machine

open Sys2Proof

theorem SameUsable.status {s s' : State} (h : SameUsable s s') : s.status = s'.status := h.1

theorem SameUsable.writer {s s' : State} (h : SameUsable s s') : Slot.usable s.w = Slot.usable s'.w := h.2.1

theorem SameUsable.reader {s s' : State} (h : SameUsable s s') : Slot.usable s.r = Slot.usable s'.r := h.2.2

/-- Two states after an operation that the host cannot tell apart, now or later. -/
structure Alike (t t' : State) : Prop where
  resp : t.resp = t'.resp
  usable : SameUsable t t'

/-- Both runs go on, to states that are alike. -/
def AnswerAlike (x x' : Result) : Prop := ∃ t t', x = .next t ∧ x' = .next t' ∧ Alike t t'

theorem Alike.answerAlike {t t' : State} (h : Alike t t') : AnswerAlike (.next t) (.next t') := ⟨t, t', rfl, rfl, h⟩

/-- A test of the operands takes the same branch in both states. -/
theorem Alike.ite {p : Prop} [Decidable p] {t t' u u' : State} (ht : Alike t t') (hu : Alike u u') :
    Alike (if p then t else u) (if p then t' else u') := by
  split
  · exact ht
  · exact hu

/-! ### The shared operations -/

/-- An error hides all that the two states differ in. -/
theorem raise_alike (e : ErrorKind) (s s' : State) : Alike (raise e s) (raise e s') where
  resp := rfl
  usable := by
    obtain ⟨hw, hr⟩ := raise_not_live e s
    obtain ⟨hw', hr'⟩ := raise_not_live e s'
    refine ⟨rfl, ?_, ?_⟩
    · rw [Slot.usable_eq_none hw, Slot.usable_eq_none hw']
    · rw [Slot.usable_eq_none hr, Slot.usable_eq_none hr']

section
variable {s s' : State} (h : SameUsable s s')
include h

theorem reject_alike : Alike (reject s) (reject s') := ⟨rfl, h⟩

/-- The code answered is that of STATUS. -/
theorem answer_alike (r : Response) : Alike (State.answer s r) (State.answer s' r) where
  resp := by rw [answer_resp, answer_resp, h.status]
  usable := h

theorem raiseFromOk_alike (e : ErrorKind) : Alike (raiseFromOk e s) (raiseFromOk e s') := by
  by_cases hs : s.status = .ok
  · rw [raiseFromOk_of_ok e hs, raiseFromOk_of_ok e (h.status ▸ hs)]
    exact raise_alike e s s'
  · rw [raiseFromOk_of_fault e hs, raiseFromOk_of_fault e (h.status ▸ hs)]
    exact ⟨rfl, h⟩

/-- The same writer is found in both states, or the operation is rejected in both. -/
theorem onWriter_answerAlike {k k' : Writer → State} (hk : ∀ c, Alike (k c) (k' c)) :
    AnswerAlike (onWriter s k) (onWriter s' k') := by
  have hsame : usableWriter s = usableWriter s' := by rw [usableWriter_eq, usableWriter_eq, h.status, h.writer]
  rw [onWriter, onWriter, hsame]
  cases usableWriter s' with
  | some c => exact (hk c).answerAlike
  | none => exact (reject_alike h).answerAlike

/-- As for the writer. -/
theorem onReader_answerAlike {k k' : Reader → State} (hk : ∀ c, Alike (k c) (k' c)) :
    AnswerAlike (onReader s k) (onReader s' k') := by
  have hsame : usableReader s = usableReader s' := by rw [usableReader_eq, usableReader_eq, h.status, h.reader]
  rw [onReader, onReader, hsame]
  cases usableReader s' with
  | some c => exact (hk c).answerAlike
  | none => exact (reject_alike h).answerAlike

end

/-! ### Each operation, given the same operands -/

section
variable {s s' : State} (h : SameUsable s s') (hargs : s.args = s'.args)
include h hargs

theorem bwEmit_answerAlike : AnswerAlike (exec .bwEmit s) (exec .bwEmit s') := by
  refine onWriter_answerAlike h fun c => ?_
  simp only [nbitsOperand, emitValue, hargs]
  refine (raise_alike _ s s').ite (answer_alike ?_ _)
  exact ⟨h.status, rfl, h.reader⟩

theorem brPeek_answerAlike : AnswerAlike (exec .brPeek s) (exec .brPeek s') := by
  refine onReader_answerAlike h fun c => ?_
  simp only [nbitsOperand, hargs]
  exact (raise_alike _ s s').ite ((raise_alike _ s s').ite (answer_alike h _))

theorem brReadBits_answerAlike : AnswerAlike (exec .brReadBits s) (exec .brReadBits s') := by
  refine onReader_answerAlike h fun c => ?_
  simp only [nbitsOperand, hargs]
  refine (raise_alike _ s s').ite ((raise_alike _ s s').ite (answer_alike ?_ _))
  exact ⟨h.status, h.writer, rfl⟩

theorem brNew_answerAlike : AnswerAlike (exec .brNew s) (exec .brNew s') := by
  refine (answer_alike (s := newReader _ s) (s' := newReader _ s') ⟨rfl, h.writer, ?_⟩ noResult).answerAlike
  rw [newReader_r, newReader_r, bytesOperand, bytesOperand, hargs]

theorem ftSelect_answerAlike : AnswerAlike (exec .ftSelect s) (exec .ftSelect s') := by
  cases hsel : selectForm s.args.value with
  | ok ev => exact ⟨_, _, exec_ftSelect_of_ok hsel, exec_ftSelect_of_ok (hargs ▸ hsel), answer_alike h _⟩
  | error e => exact ⟨_, _, exec_ftSelect_of_error hsel, exec_ftSelect_of_error (hargs ▸ hsel), raiseFromOk_alike h e⟩

theorem ftClassify_answerAlike : AnswerAlike (exec .ftClassify s) (exec .ftClassify s') := by
  rw [exec_ftClassify, exec_ftClassify, hargs]
  exact (answer_alike h _).answerAlike

/-- The call makes and discards its own writer; the reader stays as it was (43_codec_encode.md R104). -/
theorem codecEncode_answerAlike : AnswerAlike (exec .codecEncode s) (exec .codecEncode s') := by
  cases hloop : encodeLoop s.args.valuesIn Writer.empty 0 with
  | ok p =>
    exact ⟨_, _, exec_codecEncode_of_ok hloop, exec_codecEncode_of_ok (hargs ▸ hloop), rfl, rfl, rfl, h.reader⟩
  | error e =>
    exact ⟨_, _, exec_codecEncode_of_error hloop, exec_codecEncode_of_error (hargs ▸ hloop), raise_alike e _ _⟩

/-- As for CODEC.ENCODE, with the reader its own (44_codec_decode.md R115). -/
theorem codecDecode_answerAlike : AnswerAlike (exec .codecDecode s) (exec .codecDecode s') := by
  cases hrun : decodeRun s.args.bytesIn s.args.count with
  | ok p =>
    exact ⟨_, _, exec_codecDecode_of_ok hrun, exec_codecDecode_of_ok (hargs ▸ hrun), rfl, rfl, h.writer, rfl⟩
  | error e =>
    exact ⟨_, _, exec_codecDecode_of_error hrun, exec_codecDecode_of_error (hargs ▸ hrun), raise_alike e _ _⟩

/-- Every operation. A code word is none: it also reads the decode record, which differs between the two states. -/
theorem exec_answerAlike {i : Instr} (hi : codeWordOf i = none) : AnswerAlike (exec i s) (exec i s') := by
  cases i with
  | bwNew => exact (answer_alike (s := newWriter s) (s' := newWriter s') ⟨rfl, rfl, h.reader⟩ noResult).answerAlike
  | bwEmit => exact bwEmit_answerAlike h hargs
  | bwFinalize => exact onWriter_answerAlike h fun c => answer_alike h _
  | brNew => exact brNew_answerAlike h hargs
  | brPeek => exact brPeek_answerAlike h hargs
  | brReadBits => exact brReadBits_answerAlike h hargs
  | ftSelect => exact ftSelect_answerAlike h hargs
  | ftClassify => exact ftClassify_answerAlike h hargs
  | codecEncode => exact codecEncode_answerAlike h hargs
  | codecDecode => exact codecDecode_answerAlike h hargs
  | reservedA | reservedB | reservedC | reservedD | reservedE | reservedF =>
    exact (raise_alike .illegalOperation s s').answerAlike
  | cwF1 d | cwF2 d | cwF3 d | cwF4 d | cwF5 d | cwF6 d | cwF7 d
  | cwRawN2 d | cwRawN3 d | cwRawN4 d | cwRawN5 d | cwRawN6 d | cwRawN7 d => cases hi

end

/-- A request loads the same operands in both states and runs an operation. -/
theorem call_answerAlike {s s' : State} (h : SameUsable s s') (q : Request) : AnswerAlike (call q s) (call q s') := by
  rw [call_eq_exec, call_eq_exec]
  exact exec_answerAlike (s := State.load s q []) (s' := State.load s' q []) h rfl (codeWordOf_decodeCommand q.op)

/-- Settles O54, by induction on the requests: each is answered alike and leaves two states as at the start. -/
theorem responsesIgnoreUnspecifiedContents : Obligations.ResponsesIgnoreUnspecifiedContents := by
  intro qs
  induction qs with
  | nil => exact fun _ _ _ => rfl
  | cons q qs ih =>
    intro s s' h
    obtain ⟨t, t', hcall, hcall', halike⟩ := call_answerAlike h q
    rw [responses_cons_of_call qs hcall, responses_cons_of_call qs hcall', halike.resp, ih t t' halike.usable]

end Sys2Proof.Machine
end

section
/-! Every instruction goes on (60_exceptions.md R136, 70_reset_and_hazards.md R156, R157). Of two runs that
answer alike both go on, which settles the operations; a code word is followed through each of its cases. -/

namespace Sys2Proof.Machine

open Sys2Proof

/-- The code words of a decode call, run or not, failed or not (44_codec_decode.md R110). -/
theorem codeWord_goesOn (f : Form) (x : Nat) (s : State) : ∃ t, codeWord f x s = .next t := by
  cases hc : callReader s with
  | none => exact ⟨s, by rw [codeWord, hc]⟩
  | some c =>
    cases hpass : codeWordPass f x c s.d with
    | ok p => exact ⟨_, codeWord_of_pass hc hpass⟩
    | error e => exact ⟨_, codeWord_of_error hc hpass⟩

/-- The run is compared with itself. -/
theorem exec_goesOn_of_operation {i : Instr} (hi : codeWordOf i = none) (s : State) : ∃ t, exec i s = .next t := by
  obtain ⟨t, -, ht, -⟩ := exec_answerAlike (s := s) (s' := s) ⟨rfl, rfl, rfl⟩ rfl hi
  exact ⟨t, ht⟩

/-- Settles O56: an instruction is an operation or a code word. -/
theorem everyInstructionGoesOn : Obligations.EveryInstructionGoesOn := by
  intro i s
  rcases instr_cases i with ⟨op, rfl⟩ | ⟨f, d, rfl⟩
  · exact exec_goesOn_of_operation (codeWordOf_decodeCommand op) s
  · rw [exec_codeWordInstr]
    exact codeWord_goesOn f d s

end Sys2Proof.Machine
end
